-- ==== Sys2Proof/Word.lean ====
section
/-! DEFINITION. The word types of the CHIP-8 engine (spec 00_scope.md R6, R8): every value is unsigned, bit 0 is the
least significant bit. -/

namespace Sys2Proof

/-- One 8-bit value: a general register, a timer, a memory cell (00_scope.md R6, `XLEN`). -/
abbrev Byte := BitVec 8

/-- One 16-bit value: an instruction word, I, PC, a stack entry, K, KP (00_scope.md R6). -/
abbrev Word := BitVec 16

/-- The 12-bit address operand NNN (30_encoding.md R71, R72). -/
abbrev Addr := BitVec 12

/-- The index of a general register, V0 to VF (10_state.md R21, R41; 93_implementation_defined.md U1). -/
abbrev Reg := Fin 16

/-- VF, the flag register (10_state.md R22). -/
abbrev vf : Reg := 15

end Sys2Proof
end

