-- ==== Sys2Proof/Config.lean ====
section
/-! DEFINITION. What an implementation fixes (00_scope.md R6), the open parameters (00_scope.md R7) and the free values
that no proof can see (43_timer_key_random.md R158; 92_eei_decisions.md D10, D13). -/

namespace Sys2Proof

/-- The open parameters of the block, arguments of the model (00_scope.md R7). DESIGN CHOICE (log 1, safe): they stand in
`State`, so that a statement about every state holds for every value of every parameter. -/
structure Params where
  /-- `EXT_SHL_8XYE`: whether 8XYE decodes as SHL (30_encoding.md R76). -/
  extShl : Bool
  /-- `MEM_INCREMENT_I`: whether FX55 and FX65 add X + 1 to I (42_index_memory.md R134, R135). -/
  memIncrementI : Bool
  /-- `FX1E_SETS_VF`: whether FX1E writes VF with the 12-bit overflow (42_index_memory.md R131). -/
  fx1eSetsVF : Bool
  /-- `FONT_BASE`, with `FONT_BASE + 80 <= 0x200`, that is at most 432 (00_scope.md R7). -/
  fontBase : Fin 433
  /-- `FONT_DATA`, 80 bytes (70_reset_and_hazards.md R213). -/
  fontData : Vector Byte 80
  deriving DecidableEq, Repr

namespace Config

/-- `MEM_SIZE` (00_scope.md R6). -/
def memSize : Nat := 4096

/-- The last address of memory, 0xFFF (20_memory.md R50). -/
def lastAddr : Nat := 0xFFF

/-- `PROG_BASE`: where a program is loaded and where PC starts (00_scope.md R6). -/
def progBase : Nat := 0x200

/-- The longest ROM that `reset_load` accepts (70_reset_and_hazards.md R214). -/
def maxRomLength : Nat := 3584

/-- `FX1E_SETS_VF` is OPEN with no recommended value (00_scope.md R7, D13): a constant that nothing can evaluate.
DESIGN CHOICE (log 3, safe). -/
opaque fx1eSetsVF : Bool

/-- The value of the 8-bit input `rnd` at its n-th sampling, under no law at all (43_timer_key_random.md R158, D10).
DESIGN CHOICE (log 5, safe): a free value, with no body. -/
opaque rndInput : Nat → Byte

/-- The glyphs of the digits 0 to 7, five bytes each (70_reset_and_hazards.md R213). PRESUMED (log 4, unsafe). -/
def fontLow : List Byte :=
  [0xF0, 0x90, 0x90, 0x90, 0xF0] ++ [0x20, 0x60, 0x20, 0x20, 0x70] ++
  [0xF0, 0x10, 0xF0, 0x80, 0xF0] ++ [0xF0, 0x10, 0xF0, 0x10, 0xF0] ++
  [0x90, 0x90, 0xF0, 0x10, 0x10] ++ [0xF0, 0x80, 0xF0, 0x10, 0xF0] ++
  [0xF0, 0x80, 0xF0, 0x90, 0xF0] ++ [0xF0, 0x10, 0x20, 0x40, 0x40]

/-- The glyphs of the digits 8 to F (70_reset_and_hazards.md R213). PRESUMED (log 4, unsafe). -/
def fontHigh : List Byte :=
  [0xF0, 0x90, 0xF0, 0x90, 0xF0] ++ [0xF0, 0x90, 0xF0, 0x10, 0xF0] ++
  [0xF0, 0x90, 0xF0, 0x90, 0x90] ++ [0xE0, 0x90, 0xE0, 0x90, 0xE0] ++
  [0xF0, 0x80, 0x80, 0x80, 0xF0] ++ [0xE0, 0x90, 0x90, 0x90, 0xE0] ++
  [0xF0, 0x80, 0xF0, 0x80, 0xF0] ++ [0xF0, 0x80, 0xF0, 0x80, 0x80]

/-- The recommended `FONT_DATA` (70_reset_and_hazards.md R213, D11). PRESUMED (log 4, unsafe). -/
def fontData : Vector Byte 80 := ⟨(fontLow ++ fontHigh).toArray, by decide⟩

/-- The parameters that `State.reset` takes: the recommended values of 00_scope.md R7, and for `FX1E_SETS_VF`, which has
none, the constant above. DESIGN CHOICE and PRESUMED (log 2, 3, 4). -/
def params : Params where
  extShl := false
  memIncrementI := false
  fx1eSetsVF := fx1eSetsVF
  fontBase := 0x050
  fontData := fontData

end Config

end Sys2Proof
end

