-- ==== Sys2Proof/Machine/State.lean ====
section
/-! DEFINITION. The state of the engine: every element of 10_state.md R20, and the model's own three fields (`params`,
`draws`, `out`); the reasons a step can stop (60_exceptions.md R180); the state after reset (10_state.md R39). -/

namespace Sys2Proof.Machine

/-- The control FSM (10_state.md R34). -/
inductive Mode where
  /-- Instructions are fetched and executed. -/
  | running
  /-- FX0A waits for a key; `x` is the destination register it latched. -/
  | awaitingKey (x : Reg)
  deriving DecidableEq, Repr

/-- The two Booleans of a step that returns `Ok` (00_scope.md R10), the ports of 60_exceptions.md R196. -/
structure StepFlags where
  displayChanged : Bool
  waitingKey : Bool
  deriving DecidableEq, Repr

/-- The four error kinds, a closed list (60_exceptions.md R180), with the diagnostic values of R185. A step that raises one
changes no state (R186). All four are the spec's own outcomes, so stopping on them is safe. -/
inductive Fault where
  /-- `OutOfBounds`: an access at an address above 0xFFF (R181). Raised by the fetch, DRW, LD B, LD [I] and LD Vx,[I].
  `addr` is the lowest address out of range (20_memory.md R66). Safe: the spec names it. -/
  | outOfBounds (addr : Nat)
  /-- `InvalidOpcode`: the fetched word `w` decodes to no instruction (R182). Raised by the decode stage. Safe: the spec
  names it. -/
  | invalidOpcode (w : Word)
  /-- `StackOverflow`: a push with SP = 16 (R183). Raised by CALL. Safe: the spec names it. -/
  | stackOverflow
  /-- `StackUnderflow`: a pop with SP = 0 (R184). Raised by RET. Safe: the spec names it. -/
  | stackUnderflow
  deriving DecidableEq, Repr

/-- What the model does not accept. No step refuses. -/
inductive Refusal where
  /-- An instruction with no meaning yet, by its mnemonic. Raised by no arm. Safe: nothing follows from it. -/
  | notModelled (mnemonic : String)
  /-- `reset_load` was given a ROM of more than 3584 bytes (70_reset_and_hazards.md R214). Safe: the spec makes the length a
  precondition. -/
  | oversizedRom (length : Nat)
  deriving DecidableEq, Repr

/-- The listed bytes of memory, in one canonical form: addresses strictly rising, all in 0x000 to 0xFFF, and no entry equal
to what an unlisted address reads as (`Memory.background`, Machine/Ops.lean). -/
abbrev Memory := List Host.Cell

/-- `FB`: 32 rows of 64 pixels, `true` a set pixel (10_state.md R32). -/
abbrev Framebuffer := Vector (Vector Bool 64) 32

/-- The state of the machine (10_state.md R20). -/
structure State where
  /-- V0 to VF (R21). -/
  v : Vector Byte 16
  /-- I, the index register (R23). -/
  i : Word
  /-- The program counter (R24). -/
  pc : Word
  /-- The delay timer (R26). -/
  dt : Byte
  /-- The sound timer (R27). -/
  st : Byte
  /-- The call stack's entries (R28). -/
  stack : Vector Word 16
  /-- SP, the depth of the stack, 0 to 16 (R28, R36). -/
  sp : Fin 17
  /-- The memory (R31), its listed bytes. -/
  mem : Memory
  /-- The framebuffer (R32). -/
  fb : Framebuffer
  /-- K, the keypad: bit k is 1 when key k is down (R33). -/
  k : Word
  /-- The control FSM (R34). -/
  mode : Mode
  /-- KP, the keypad sample of the previous step of a wait (R35). -/
  kp : Word
  /-- The model's own: the open parameters, arguments of the model (00_scope.md R7; log 1). -/
  params : Params
  /-- The model's own: how many values of the input `rnd` have been sampled (43_timer_key_random.md R158; log 5). -/
  draws : Nat
  /-- The model's own: what the last step that completed returned (00_scope.md R10; log 12). -/
  out : StepFlags
  deriving DecidableEq, Repr

/-- The reset value of every element (10_state.md R39) for the parameters `p`, before any ROM byte is loaded: memory lists
nothing, so that every address reads as its reset contents. FB clear, K, KP and `mode` are the spec's decisions D17 and D18
(log 7, 8). The count of `rnd` samples is the model's own and is handed over (log 6). -/
def State.initial (p : Params) (draws : Nat) : State where
  v := Vector.replicate 16 0
  i := 0
  pc := 0x200
  dt := 0
  st := 0
  stack := Vector.replicate 16 0
  sp := 0
  mem := []
  fb := Vector.replicate 32 (Vector.replicate 64 false)
  k := 0
  mode := .running
  kp := 0
  params := p
  draws := draws
  out := ⟨false, false⟩

/-- The machine right after `reset_load` of the empty ROM (10_state.md R39; 70_reset_and_hazards.md R210, R214). -/
def State.reset : State := State.initial Config.params 0

end Sys2Proof.Machine
end

