-- ==== Sys2Proof/Machine/Ops.lean ====
section
/-! DEFINITION. The named operations over memory, the stack, the general registers and the program counter, and the one
way a step raises an error. -/

namespace Sys2Proof.Machine

/-- The outcome of a step. -/
abbrev Result := Host.Outcome State Fault Refusal

/-! ### Raising an error

The hardware takes no trap: an error is the outcome of the step, it saves nothing, changes no state element and goes to no
handler (60_exceptions.md R186, R188), and there is no return from one (R189). -/

/-- `raise`: the step ends with `Err f` and no state element changes (60_exceptions.md R186). -/
def raise (f : Fault) : Result := .fault f

/-- Goes on with the value of a checked operation, or raises its error. -/
def orRaise {α : Type} (r : Except Fault α) (go : α → Result) : Result :=
  match r with
  | .ok a => go a
  | .error f => raise f

/-! ### The list of memory cells -/

/-- What an address that is not listed reads as: the reset contents, `FONT_DATA` at `FONT_BASE` and 0x00 elsewhere
(70_reset_and_hazards.md R212; 20_memory.md R52). -/
def Memory.background (p : Params) (a : Nat) : Byte :=
  if h : p.fontBase.val ≤ a ∧ a < p.fontBase.val + 80 then p.fontData[a - p.fontBase.val] else 0

/-- The byte at address `a` (20_memory.md R56: the last value written). -/
def Memory.read (p : Params) : Memory → Nat → Byte
  | [], a => Memory.background p a
  | (c, b) :: rest, a => if c = a then b else Memory.read p rest a

/-- Drops the entry of address `a`. -/
def Memory.remove : Memory → Nat → Memory
  | [], _ => []
  | (c, b) :: rest, a => if c = a then rest else (c, b) :: Memory.remove rest a

/-- Lists byte `b` at address `a`, in rising order. -/
def Memory.insert : Memory → Nat → Byte → Memory
  | [], a, b => [(a, b)]
  | (c, d) :: rest, a, b =>
    if a < c then (a, b) :: (c, d) :: rest
    else if c = a then (a, b) :: rest
    else (c, d) :: Memory.insert rest a b

/-- Stores byte `b` at address `a` and keeps the canonical form (20_memory.md R56: exactly one byte changes). -/
def Memory.write (p : Params) (m : Memory) (a : Nat) (b : Byte) : Memory :=
  if b = Memory.background p a then Memory.remove m a else Memory.insert m a b

/-- Every listed address is below `a`'s successors: the addresses rise strictly from `lo` on. -/
def Memory.rises : Nat → Memory → Bool
  | _, [] => true
  | lo, (c, _) :: rest => decide (lo ≤ c) && Memory.rises (c + 1) rest

/-- The canonical form: addresses strictly rising and within 0x000 to 0xFFF (20_memory.md R50), no entry equal to what the
address would read as unlisted. -/
def Memory.wf (p : Params) (m : Memory) : Bool :=
  Memory.rises 0 m && m.all (fun c => decide (c.1 ≤ Config.lastAddr) && !decide (c.2 = Memory.background p c.1))

/-! ### Memory as the engine sees it -/

/-- The byte at address `a` of memory. -/
def State.byteAt (s : State) (a : Nat) : Byte := Memory.read s.params s.mem a

/-- Memory with byte `b` at address `a`. -/
def State.setByte (s : State) (a : Nat) (b : Byte) : State := { s with mem := Memory.write s.params s.mem a b }

/-- Stores the bytes at ascending addresses from `a` (20_memory.md R66). -/
def State.setBytes : State → Nat → List Byte → State
  | s, _, [] => s
  | s, a, b :: rest => State.setBytes (s.setByte a b) (a + 1) rest

/-- The arbiter's bounds check of the `n` byte addresses from `base` on, one comparison (20_memory.md R51, R57, R58). The
address it reports is the lowest one out of range (R66); with no byte to access it cannot fail (44_display.md R172). -/
def checkSpan (base n : Nat) : Except Fault Unit :=
  if 0 < n ∧ Config.lastAddr < base + n - 1 then .error (.outOfBounds (max base 0x1000)) else .ok ()

/-- Reads `n` bytes at ascending addresses from `base`, all or nothing (20_memory.md R54, R58, R66). -/
def State.readSpan (s : State) (base n : Nat) : Except Fault (List Byte) :=
  match checkSpan base n with
  | .ok _ => .ok ((List.range n).map (fun r => s.byteAt (base + r)))
  | .error f => .error f

/-- Writes the bytes at ascending addresses from `base`, all or nothing (20_memory.md R54, R58, R66). -/
def State.writeSpan (s : State) (base : Nat) (bytes : List Byte) : Except Fault State :=
  match checkSpan base bytes.length with
  | .ok _ => .ok (s.setBytes base bytes)
  | .error f => .error f

/-! ### General registers (10_state.md R21, R41) -/

/-- `V[x]`. -/
def State.readV (s : State) (x : Reg) : Byte := s.v[x]

/-- `V[x] <- b`. -/
def State.writeV (s : State) (x : Reg) (b : Byte) : State := { s with v := s.v.set x b }

/-- Writes V0, V1, ... with the bytes given, as many as there are; the registers beyond keep their values
(42_index_memory.md R135). -/
def State.writeVs (s : State) (bytes : List Byte) : State :=
  { s with v := Vector.ofFn (fun r : Fin 16 => bytes.getD r.val s.v[r]) }

/-- V0 to V[x] in order (42_index_memory.md R134). -/
def State.readVs (s : State) (x : Reg) : List Byte := s.v.toList.take (x.val + 1)

/-! ### The stack (10_state.md R28) -/

/-- `Push(w)`: the check comes first (10_state.md R29). -/
def State.push (s : State) (w : Word) : Except Fault State :=
  if h : s.sp.val = 16 then .error .stackOverflow
  else .ok { s with stack := s.stack.set s.sp.val w (by omega), sp := ⟨s.sp.val + 1, by omega⟩ }

/-- `Pop()`: the value and the state with the entry left in place, dead (10_state.md R30). -/
def State.pop (s : State) : Except Fault (Word × State) :=
  if h : s.sp.val = 0 then .error .stackUnderflow
  else .ok (s.stack[s.sp.val - 1]'(by omega), { s with sp := ⟨s.sp.val - 1, by omega⟩ })

/-! ### The end of an instruction (40_step_and_control_flow.md R90, R92) -/

/-- What a step returns when it neither draws nor waits. -/
def plainFlags : StepFlags := ⟨false, false⟩

/-- `pc <- target`, and the step returns `Ok(false, false)`. -/
def State.jumpTo (s : State) (target : Word) : State := { s with pc := target, out := plainFlags }

/-- pc: default, `pc + 2` modulo 2^16 (40_step_and_control_flow.md R92). -/
def State.advance (s : State) : State := s.jumpTo (s.pc + 2)

/-- pc: skip, `pc + 4` modulo 2^16 when the condition holds, default otherwise (40_step_and_control_flow.md R92). -/
def State.skipIf (s : State) (c : Bool) : State := if c then s.jumpTo (s.pc + 4) else s.advance

/-- pc: default of an instruction that reports a changed display (44_display.md R173). -/
def State.advanceDrawn (s : State) : State := { s with pc := s.pc + 2, out := ⟨true, false⟩ }

end Sys2Proof.Machine
end

