-- ==== Sys2Proof/Machine/Operands.lean ====
section
/-! DEFINITION. The operand forms (30_encoding.md R72; 42_index_memory.md R136; 43_timer_key_random.md R157). A register
operand is `State.readV`, an immediate is used as it stands. -/

namespace Sys2Proof.Machine

/-- `zext_16(NNN)`, the absolute address operand (30_encoding.md R72). -/
def addrOperand (nnn : Addr) : Word := nnn.setWidth 16

/-- The first effective address of a data access, `I` as an unbounded integer (42_index_memory.md R136). -/
def State.dataBase (s : State) : Nat := s.i.toNat

/-- `V[X][3:0]`: the key number or the digit that a register value names; the high nibble is ignored
(43_timer_key_random.md R157; 42_index_memory.md R132; D9, log 17). -/
def lowNibble (b : Byte) : Fin 16 := (b.extractLsb' 0 4).toFin

/-- `key(n)`: bit n of a keypad sample (43_timer_key_random.md R157). -/
def keyDown (keys : Word) (n : Fin 16) : Bool := keys.getLsbD n.val

/-- The three decimal digits of a byte, hundreds first (42_index_memory.md R133). -/
def decimalDigits (b : Byte) : List Byte :=
  [BitVec.ofNat 8 (b.toNat / 100), BitVec.ofNat 8 (b.toNat / 10 % 10), BitVec.ofNat 8 (b.toNat % 10)]

/-- The address of the glyph of digit `d`: `FONT_BASE + 5 * d` (42_index_memory.md R132). -/
def glyphAddr (p : Params) (d : Fin 16) : Word := BitVec.ofNat 16 (p.fontBase.val + 5 * d.val)

end Sys2Proof.Machine
end

