-- ==== Sys2Proof/Machine/Flags.lean ====
section
/-! DEFINITION. Every flag computation (10_state.md R22; 41_alu.md R110). A flag-writing operation gives its result and its
flag from the operands as they are at the start of the step; the result is written first and VF last. -/

namespace Sys2Proof.Machine

/-- A flag as VF holds it: exactly 0 or 1 (10_state.md R22). -/
def flagByte (f : Bool) : Byte := if f then 1 else 0

/-- The sum modulo 256 and the carry (41_alu.md R117). -/
def addCarry (a b : Byte) : Byte × Bool :=
  (BitVec.ofNat 8 (a.toNat + b.toNat), decide (a.toNat + b.toNat > 255))

/-- The difference modulo 256 and "no borrow" (41_alu.md R118, R120). -/
def subNoBorrow (a b : Byte) : Byte × Bool :=
  (BitVec.ofNat 8 (a.toNat + 256 - b.toNat), decide (a.toNat ≥ b.toNat))

/-- The byte shifted right by one and the bit shifted out (41_alu.md R119). -/
def shiftRightOut (a : Byte) : Byte × Bool := (a >>> 1, a.getLsbD 0)

/-- The byte shifted left by one and the bit shifted out (41_alu.md R121). -/
def shiftLeftOut (a : Byte) : Byte × Bool := (a <<< 1, a.getLsbD 7)

/-- I + V[X] modulo 2^16 and whether the true sum leaves the 12-bit address range (42_index_memory.md R131). -/
def indexSum (i : Word) (a : Byte) : Word × Bool :=
  (BitVec.ofNat 16 (i.toNat + a.toNat), decide (i.toNat + a.toNat > 0xFFF))

/-- `V[15] <- f`. -/
def State.writeFlag (s : State) (f : Bool) : State := s.writeV vf (flagByte f)

/-- The flag protocol: the result into `V[x]`, then the flag into VF, last (10_state.md R22; 90_conflicts.md C3). -/
def State.writeFlagged (s : State) (x : Reg) (r : Byte × Bool) : State := (s.writeV x r.1).writeFlag r.2

end Sys2Proof.Machine
end

