-- ==== Sys2Proof/Machine/Alu.lean ====
section
/-! DEFINITION. Register loads and the 8-bit ALU (41_alu.md R111 to R121). Each ends with pc: default. -/

namespace Sys2Proof.Machine

/-- `LD Vx, nn` (R111). -/
def execLdImm (x : Reg) (nn : Byte) (s : State) : Result := .next (s.writeV x nn).advance

/-- `ADD Vx, nn` (R112): wraps, writes no flag. -/
def execAddImm (x : Reg) (nn : Byte) (s : State) : Result := .next (s.writeV x (s.readV x + nn)).advance

/-- `LD Vx, Vy` (R113). -/
def execLdReg (x y : Reg) (s : State) : Result := .next (s.writeV x (s.readV y)).advance

/-- `OR Vx, Vy` (R114): VF is not written. -/
def execOrReg (x y : Reg) (s : State) : Result := .next (s.writeV x (s.readV x ||| s.readV y)).advance

/-- `AND Vx, Vy` (R115). -/
def execAndReg (x y : Reg) (s : State) : Result := .next (s.writeV x (s.readV x &&& s.readV y)).advance

/-- `XOR Vx, Vy` (R116). -/
def execXorReg (x y : Reg) (s : State) : Result := .next (s.writeV x (s.readV x ^^^ s.readV y)).advance

/-- `ADD Vx, Vy` (R117): VF is the carry. -/
def execAddReg (x y : Reg) (s : State) : Result :=
  .next (s.writeFlagged x (addCarry (s.readV x) (s.readV y))).advance

/-- `SUB Vx, Vy` (R118): VF is 1 when there is no borrow. -/
def execSubReg (x y : Reg) (s : State) : Result :=
  .next (s.writeFlagged x (subNoBorrow (s.readV x) (s.readV y))).advance

/-- `SHR Vx` (R119): VX in place, the Y field ignored. -/
def execShr (x _y : Reg) (s : State) : Result :=
  .next (s.writeFlagged x (shiftRightOut (s.readV x))).advance

/-- `SUBN Vx, Vy` (R120): VY - VX. -/
def execSubnReg (x y : Reg) (s : State) : Result :=
  .next (s.writeFlagged x (subNoBorrow (s.readV y) (s.readV x))).advance

/-- `SHL Vx` (R121; Tier C, D2, log 26): VX in place, the Y field ignored. The decoder gives it only under
`EXT_SHL_8XYE` (30_encoding.md R76). -/
def execShl (x _y : Reg) (s : State) : Result :=
  .next (s.writeFlagged x (shiftLeftOut (s.readV x))).advance

end Sys2Proof.Machine
end

