-- ==== Sys2Proof/Machine/Display.lean ====
section
/-! DEFINITION. The framebuffer instructions (44_display.md R170 to R172). -/

namespace Sys2Proof.Machine

/-- `FB[y mod 32][x mod 64]`: the coordinates are wrapped (10_state.md R32). -/
def Framebuffer.pixel (fb : Framebuffer) (x y : Nat) : Bool :=
  (fb[y % 32]'(Nat.mod_lt _ (by decide)))[x % 64]'(Nat.mod_lt _ (by decide))

/-- `FB[y mod 32][x mod 64] <- FB[y mod 32][x mod 64] ^ 1` (44_display.md R171). -/
def Framebuffer.flip (fb : Framebuffer) (x y : Nat) : Framebuffer :=
  fb.set (y % 32)
    ((fb[y % 32]'(Nat.mod_lt _ (by decide))).set (x % 64) (!fb.pixel x y) (Nat.mod_lt _ (by decide)))
    (Nat.mod_lt _ (by decide))

/-- Every pixel unset (44_display.md R170). -/
def Framebuffer.blank : Framebuffer := Vector.replicate 32 (Vector.replicate 64 false)

/-- A framebuffer with the collision bit collected so far. -/
abbrev Canvas := Framebuffer × Bool

/-- One pixel of the draw (44_display.md R171): a set pixel that is hit makes the collision; then it is flipped. -/
def drawPixel (x y : Nat) (c : Canvas) : Canvas := (c.1.flip x y, c.2 || c.1.pixel x y)

/-- Columns `c` and on of one sprite row `b`, of which `n` are left; bit 7 is the leftmost pixel (44_display.md R171; D15,
log 21). -/
def drawColumns (b : Byte) (x0 y : Nat) : Nat → Nat → Canvas → Canvas
  | 0, _, acc => acc
  | n + 1, c, acc =>
    drawColumns b x0 y n (c + 1) (if b.getLsbD (7 - c) then drawPixel (x0 + c) y acc else acc)

/-- The rows of a sprite from row `y` on (44_display.md R171). -/
def drawRows (x0 : Nat) : Nat → List Byte → Canvas → Canvas
  | _, [], acc => acc
  | y, b :: rest, acc => drawRows x0 (y + 1) rest (drawColumns b x0 y 8 0 acc)

/-- `Draw(x0, y0, rows)`: the new framebuffer and the collision bit (44_display.md R171). -/
def draw (fb : Framebuffer) (x0 y0 : Byte) (rows : List Byte) : Canvas :=
  drawRows x0.toNat y0.toNat rows (fb, false)

/-- `CLS` (44_display.md R170). -/
def execCls (s : State) : Result := .next { s with fb := Framebuffer.blank }.advanceDrawn

/-- The state after a draw: the pixels, then VF, last (44_display.md R172). -/
def State.putCanvas (s : State) (c : Canvas) : State := { s with fb := c.1 }.writeFlag c.2

/-- `DRW Vx, Vy, n` (44_display.md R172; Tier B, D1, D15, log 15, 21): the rows are read and checked before any pixel
changes. -/
def execDrw (x y : Reg) (n : Fin 16) (s : State) : Result :=
  orRaise (s.readSpan s.dataBase n.val)
    (fun rows => .next (s.putCanvas (draw s.fb (s.readV x) (s.readV y) rows)).advanceDrawn)

end Sys2Proof.Machine
end

