-- ==== Sys2Proof/Machine/Flow.lean ====
section
/-! DEFINITION. The control-flow instructions (40_step_and_control_flow.md R93 to R101). `s.pc` is the address of the
instruction (R90). -/

namespace Sys2Proof.Machine

/-- `NOP` (R93). -/
def execNop (s : State) : Result := .next s.advance

/-- `RET` (R94): `pc <- Pop()`. -/
def execRet (s : State) : Result := orRaise s.pop (fun (target, t) => .next (t.jumpTo target))

/-- `JP nnn` (R95). -/
def execJp (nnn : Addr) (s : State) : Result := .next (s.jumpTo (addrOperand nnn))

/-- `CALL nnn` (R96): pushes the address of the next instruction. -/
def execCall (nnn : Addr) (s : State) : Result :=
  orRaise (s.push (s.pc + 2)) (fun t => .next (t.jumpTo (addrOperand nnn)))

/-- `SE Vx, nn` (R97). -/
def execSeImm (x : Reg) (nn : Byte) (s : State) : Result := .next (s.skipIf (s.readV x == nn))

/-- `SNE Vx, nn` (R98). -/
def execSneImm (x : Reg) (nn : Byte) (s : State) : Result := .next (s.skipIf (s.readV x != nn))

/-- `SE Vx, Vy` (R99). -/
def execSeReg (x y : Reg) (s : State) : Result := .next (s.skipIf (s.readV x == s.readV y))

/-- `SNE Vx, Vy` (R100; Tier B, log 15). -/
def execSneReg (x y : Reg) (s : State) : Result := .next (s.skipIf (s.readV x != s.readV y))

/-- `JP V0, nnn` (R101; Tier B, D14, log 20): the sum is not reduced modulo 4096. -/
def execJpV0 (nnn : Addr) (s : State) : Result :=
  .next (s.jumpTo (addrOperand nnn + (s.readV 0).setWidth 16))

end Sys2Proof.Machine
end

