-- ==== Sys2Proof/Machine/Index.lean ====
section
/-! DEFINITION. The index register and data memory (42_index_memory.md R130 to R135), all Tier B (D1, log 15). -/

namespace Sys2Proof.Machine

/-- `LD I, nnn` (R130). -/
def execLdI (nnn : Addr) (s : State) : Result := .next { s with i := addrOperand nnn }.advance

/-- I takes the sum, and VF the 12-bit overflow, last, when `FX1E_SETS_VF` is set (R131, D13). -/
def State.addToIndex (s : State) (r : Word × Bool) : State :=
  if s.params.fx1eSetsVF then { s with i := r.1 }.writeFlag r.2 else { s with i := r.1 }

/-- `ADD I, Vx` (R131). -/
def execAddI (x : Reg) (s : State) : Result := .next (s.addToIndex (indexSum s.i (s.readV x))).advance

/-- `LD F, Vx` (R132): computes an address, reads no memory. -/
def execLdF (x : Reg) (s : State) : Result :=
  .next { s with i := glyphAddr s.params (lowNibble (s.readV x)) }.advance

/-- `LD B, Vx` (R133). -/
def execLdB (x : Reg) (s : State) : Result :=
  orRaise (s.writeSpan s.dataBase (decimalDigits (s.readV x))) (fun t => .next t.advance)

/-- The optional post-increment of I by X + 1 (R134, R135, D12). -/
def State.bumpIndex (s : State) (x : Reg) : State :=
  if s.params.memIncrementI then { s with i := s.i + BitVec.ofNat 16 (x.val + 1) } else s

/-- `LD [I], Vx` (R134): stores V0 to V[x]. -/
def execLdMemVx (x : Reg) (s : State) : Result :=
  orRaise (s.writeSpan s.dataBase (s.readVs x)) (fun t => .next (t.bumpIndex x).advance)

/-- `LD Vx, [I]` (R135): loads V0 to V[x]. -/
def execLdVxMem (x : Reg) (s : State) : Result :=
  orRaise (s.readSpan s.dataBase (x.val + 1)) (fun bytes => .next ((s.writeVs bytes).bumpIndex x).advance)

end Sys2Proof.Machine
end

