-- ==== Sys2Proof/Machine/Keypad.lean ====
section
/-! DEFINITION. The keypad instructions and the key wait (43_timer_key_random.md R153 to R157), Tier B (D1, log 15). -/

namespace Sys2Proof.Machine

/-- `SKP Vx` (R153): a level test. -/
def execSkp (x : Reg) (s : State) : Result := .next (s.skipIf (keyDown s.k (lowNibble (s.readV x))))

/-- `SKNP Vx` (R154). -/
def execSknp (x : Reg) (s : State) : Result := .next (s.skipIf (!keyDown s.k (lowNibble (s.readV x))))

/-- What a step returns while a key is awaited (R155, R156). -/
def waitingFlags : StepFlags := ⟨false, true⟩

/-- `LD Vx, K` (R155): enters the wait and latches the keys that are down already; pc and V are unchanged. -/
def execLdVxK (x : Reg) (s : State) : Result :=
  .next { s with mode := .awaitingKey x, kp := s.k, out := waitingFlags }

/-- The keys that are down now and were up at the previous sample, `K & ~KP` (R156). -/
def newKeys (k kp : Word) : Word := k &&& ~~~kp

/-- The lowest-numbered key of a set, if there is one (R156, D8, log 16). -/
def lowestKey (keys : Word) : Option (Fin 16) := (List.finRange 16).find? (fun n => keyDown keys n)

/-- The wait ends with key `n` for register `x` (R156): pc: default, back to `Running`. -/
def State.finishWait (s : State) (x : Reg) (n : Fin 16) : State :=
  { (s.writeV x (BitVec.ofNat 8 n.val)).advance with mode := .running, kp := s.k }

/-- A step in `AwaitingKey(x)` (R156; 40 R91): samples the keypad, fetches nothing, cannot fail. -/
def State.waitStep (s : State) (x : Reg) : State :=
  match lowestKey (newKeys s.k s.kp) with
  | some n => s.finishWait x n
  | none => { s with kp := s.k, out := waitingFlags }

end Sys2Proof.Machine
end

