-- ==== Sys2Proof/Machine/Random.lean ====
section
/-! DEFINITION. The random instruction (43_timer_key_random.md R158), Tier B (D1, D10, log 5, 15). -/

namespace Sys2Proof.Machine

/-- The value of the input `rnd` that the next sampling takes: a free value (R158). -/
def State.rnd (s : State) : Byte := Config.rndInput s.draws

/-- One more value of `rnd` has been sampled (R158: once by the step). -/
def State.drawn (s : State) : State := { s with draws := s.draws + 1 }

/-- `RND Vx, nn` (R158). -/
def execRnd (x : Reg) (nn : Byte) (s : State) : Result := .next (s.drawn.writeV x (s.rnd &&& nn)).advance

end Sys2Proof.Machine
end

