-- ==== Sys2Proof/Machine/Timer.lean ====
section
/-! DEFINITION. Timer access (43_timer_key_random.md R150 to R152), Tier B (D1, log 15). -/

namespace Sys2Proof.Machine

/-- `LD Vx, DT` (R150). -/
def execLdVxDt (x : Reg) (s : State) : Result := .next (s.writeV x s.dt).advance

/-- `LD DT, Vx` (R151). -/
def execLdDtVx (x : Reg) (s : State) : Result := .next { s with dt := s.readV x }.advance

/-- `LD ST, Vx` (R152). -/
def execLdStVx (x : Reg) (s : State) : Result := .next { s with st := s.readV x }.advance

end Sys2Proof.Machine
end

