-- ==== Sys2Proof/WellFormed.lean ====
section
/-! DEFINITION. When a term of `Instr` is an instruction of the machine. The operand types of `Instr` admit exactly the
values that their fields can hold (30_encoding.md R71, R72; 10_state.md R41), so the one check left is the parameter that
gates 8XYE (30_encoding.md R76). -/

namespace Sys2Proof

/-- `i.wellFormed ext` says that `i` is an instruction of the machine whose parameter `EXT_SHL_8XYE` is `ext`: SHL exists
only when the parameter is set (30_encoding.md R76), every other row of the map always does (R74). -/
def Instr.wellFormed (ext : Bool) : Instr → Bool
  | .shl _ _ => ext
  | .nop => true
  | .cls => true
  | .ret => true
  | .jp _ => true
  | .call _ => true
  | .seImm _ _ => true
  | .sneImm _ _ => true
  | .seReg _ _ => true
  | .ldImm _ _ => true
  | .addImm _ _ => true
  | .ldReg _ _ => true
  | .orReg _ _ => true
  | .andReg _ _ => true
  | .xorReg _ _ => true
  | .addReg _ _ => true
  | .subReg _ _ => true
  | .shr _ _ => true
  | .subnReg _ _ => true
  | .sneReg _ _ => true
  | .ldI _ => true
  | .jpV0 _ => true
  | .rnd _ _ => true
  | .drw _ _ _ => true
  | .skp _ => true
  | .sknp _ => true
  | .ldVxDt _ => true
  | .ldVxK _ => true
  | .ldDtVx _ => true
  | .ldStVx _ => true
  | .addI _ => true
  | .ldF _ => true
  | .ldB _ => true
  | .ldMemVx _ => true
  | .ldVxMem _ => true

end Sys2Proof
end

