-- ==== Sys2Proof/Decode.lean ====
section
/-! DEFINITION. The decoder (30_encoding.md R73), total on every word and rejecting by name (R75); the encoder, written
from the same formats (R71, R74); and the opcode map itself (R74) as a list of rows. -/

namespace Sys2Proof

/-! ### Fields (30_encoding.md R71) -/

/-- OP, bits 15 to 12. -/
def fieldOp (w : Word) : BitVec 4 := w.extractLsb' 12 4

/-- X, bits 11 to 8, a register index. -/
def fieldX (w : Word) : Reg := (w.extractLsb' 8 4).toFin

/-- Y, bits 7 to 4, a register index. -/
def fieldY (w : Word) : Reg := (w.extractLsb' 4 4).toFin

/-- N, bits 3 to 0, a number 0 to 15. -/
def fieldN (w : Word) : Fin 16 := (w.extractLsb' 0 4).toFin

/-- NN, bits 7 to 0. -/
def fieldNN (w : Word) : Byte := w.extractLsb' 0 8

/-- NNN, bits 11 to 0. -/
def fieldNNN (w : Word) : Addr := w.extractLsb' 0 12

/-! ### Decoding -/

/-- Why a word is no instruction: the lines of 30_encoding.md R75, each under a name of its own. -/
inductive Reject where
  /-- 0NNN other than 0000, 00E0 and 00EE (R75, R78). -/
  | sys0NNN
  /-- 5XYN with N not 0 (R75). -/
  | op5XYN
  /-- 8XYN with N in 8, 9, A, B, C, D, F (R75; 41_alu.md R123). -/
  | op8XYN
  /-- 8XYE while `EXT_SHL_8XYE` is false (R76). -/
  | op8XYE
  /-- 9XYN with N not 0 (R75). -/
  | op9XYN
  /-- EXNN with NN neither 9E nor A1 (R75). -/
  | opEXNN
  /-- FXNN with NN none of the nine function codes (R75). -/
  | opFXNN
  /-- Fewer than two bytes were given: an instruction is exactly two (R70, R79). -/
  | truncated
  deriving DecidableEq, Repr

/-- OP = 0: three exact words (30_encoding.md R73, R78). -/
def decodeExact (w : Word) : Except Reject Instr :=
  if w = 0x0000 then .ok .nop
  else if w = 0x00E0 then .ok .cls
  else if w = 0x00EE then .ok .ret
  else .error .sys0NNN

/-- OP = 8: the function code is N (30_encoding.md R73); `ext` is `EXT_SHL_8XYE`. -/
def decodeAlu (ext : Bool) (w : Word) : Except Reject Instr :=
  match (fieldN w).val with
  | 0x0 => .ok (.ldReg (fieldX w) (fieldY w))
  | 0x1 => .ok (.orReg (fieldX w) (fieldY w))
  | 0x2 => .ok (.andReg (fieldX w) (fieldY w))
  | 0x3 => .ok (.xorReg (fieldX w) (fieldY w))
  | 0x4 => .ok (.addReg (fieldX w) (fieldY w))
  | 0x5 => .ok (.subReg (fieldX w) (fieldY w))
  | 0x6 => .ok (.shr (fieldX w) (fieldY w))
  | 0x7 => .ok (.subnReg (fieldX w) (fieldY w))
  | 0xE => if ext then .ok (.shl (fieldX w) (fieldY w)) else .error .op8XYE
  | _ => .error .op8XYN

/-- OP = E: the function code is NN (30_encoding.md R73). -/
def decodeKey (w : Word) : Except Reject Instr :=
  match (fieldNN w).toNat with
  | 0x9E => .ok (.skp (fieldX w))
  | 0xA1 => .ok (.sknp (fieldX w))
  | _ => .error .opEXNN

/-- OP = F: the function code is NN (30_encoding.md R73). -/
def decodeMisc (w : Word) : Except Reject Instr :=
  match (fieldNN w).toNat with
  | 0x07 => .ok (.ldVxDt (fieldX w))
  | 0x0A => .ok (.ldVxK (fieldX w))
  | 0x15 => .ok (.ldDtVx (fieldX w))
  | 0x18 => .ok (.ldStVx (fieldX w))
  | 0x1E => .ok (.addI (fieldX w))
  | 0x29 => .ok (.ldF (fieldX w))
  | 0x33 => .ok (.ldB (fieldX w))
  | 0x55 => .ok (.ldMemVx (fieldX w))
  | 0x65 => .ok (.ldVxMem (fieldX w))
  | _ => .error .opFXNN

/-- `decode(w)` of 30_encoding.md R73, for the machine whose parameter `EXT_SHL_8XYE` is `ext`. The sixteen values of OP
are all named; the last line is OP = F. -/
def decode (ext : Bool) (w : Word) : Except Reject Instr :=
  match (fieldOp w).toNat with
  | 0x0 => decodeExact w
  | 0x1 => .ok (.jp (fieldNNN w))
  | 0x2 => .ok (.call (fieldNNN w))
  | 0x3 => .ok (.seImm (fieldX w) (fieldNN w))
  | 0x4 => .ok (.sneImm (fieldX w) (fieldNN w))
  | 0x5 => if fieldN w = 0 then .ok (.seReg (fieldX w) (fieldY w)) else .error .op5XYN
  | 0x6 => .ok (.ldImm (fieldX w) (fieldNN w))
  | 0x7 => .ok (.addImm (fieldX w) (fieldNN w))
  | 0x8 => decodeAlu ext w
  | 0x9 => if fieldN w = 0 then .ok (.sneReg (fieldX w) (fieldY w)) else .error .op9XYN
  | 0xA => .ok (.ldI (fieldNNN w))
  | 0xB => .ok (.jpV0 (fieldNNN w))
  | 0xC => .ok (.rnd (fieldX w) (fieldNN w))
  | 0xD => .ok (.drw (fieldX w) (fieldY w) (fieldN w))
  | 0xE => decodeKey w
  | _ => decodeMisc w

/-- The decoder on a byte stream: an instruction is exactly two bytes, the high byte first (30_encoding.md R70, R79;
20_memory.md R53). It answers the instruction with the bytes that follow it. -/
def decodeBytes (ext : Bool) : List Byte → Except Reject (Instr × List Byte)
  | hi :: lo :: rest =>
    match decode ext (hi ++ lo) with
    | .ok i => .ok (i, rest)
    | .error r => .error r
  | [_] => .error .truncated
  | [] => .error .truncated

/-! ### Encoding -/

/-- A register index as the four bits of its field. -/
def regBits (r : Reg) : BitVec 4 := BitVec.ofFin r

/-- Format A: OP, NNN (30_encoding.md R71). -/
def encodeA (op : BitVec 4) (nnn : Addr) : Word := op ++ nnn

/-- Formats RI and R: OP, X, NN (30_encoding.md R71). -/
def encodeRI (op : BitVec 4) (x : Reg) (nn : Byte) : Word := (op ++ regBits x) ++ nn

/-- Formats RR and RRN: OP, X, Y, N (30_encoding.md R71). -/
def encodeRR (op : BitVec 4) (x y : Reg) (n : BitVec 4) : Word := ((op ++ regBits x) ++ regBits y) ++ n

/-- The word of an instruction, from the opcode map (30_encoding.md R74). -/
def encode : Instr → Word
  | .nop => 0x0000
  | .cls => 0x00E0
  | .ret => 0x00EE
  | .jp nnn => encodeA 0x1 nnn
  | .call nnn => encodeA 0x2 nnn
  | .seImm x nn => encodeRI 0x3 x nn
  | .sneImm x nn => encodeRI 0x4 x nn
  | .seReg x y => encodeRR 0x5 x y 0x0
  | .ldImm x nn => encodeRI 0x6 x nn
  | .addImm x nn => encodeRI 0x7 x nn
  | .ldReg x y => encodeRR 0x8 x y 0x0
  | .orReg x y => encodeRR 0x8 x y 0x1
  | .andReg x y => encodeRR 0x8 x y 0x2
  | .xorReg x y => encodeRR 0x8 x y 0x3
  | .addReg x y => encodeRR 0x8 x y 0x4
  | .subReg x y => encodeRR 0x8 x y 0x5
  | .shr x y => encodeRR 0x8 x y 0x6
  | .subnReg x y => encodeRR 0x8 x y 0x7
  | .shl x y => encodeRR 0x8 x y 0xE
  | .sneReg x y => encodeRR 0x9 x y 0x0
  | .ldI nnn => encodeA 0xA nnn
  | .jpV0 nnn => encodeA 0xB nnn
  | .rnd x nn => encodeRI 0xC x nn
  | .drw x y n => encodeRR 0xD x y (BitVec.ofFin n)
  | .skp x => encodeRI 0xE x 0x9E
  | .sknp x => encodeRI 0xE x 0xA1
  | .ldVxDt x => encodeRI 0xF x 0x07
  | .ldVxK x => encodeRI 0xF x 0x0A
  | .ldDtVx x => encodeRI 0xF x 0x15
  | .ldStVx x => encodeRI 0xF x 0x18
  | .addI x => encodeRI 0xF x 0x1E
  | .ldF x => encodeRI 0xF x 0x29
  | .ldB x => encodeRI 0xF x 0x33
  | .ldMemVx x => encodeRI 0xF x 0x55
  | .ldVxMem x => encodeRI 0xF x 0x65

/-- The high byte of a word, the one at the lower address (20_memory.md R53). -/
def highByte (w : Word) : Byte := w.extractLsb' 8 8

/-- The low byte of a word (20_memory.md R53). -/
def lowByte (w : Word) : Byte := w.extractLsb' 0 8

/-- The two bytes of an instruction as memory holds them (20_memory.md R53). -/
def encodeBytes (i : Instr) : List Byte := [highByte (encode i), lowByte (encode i)]

/-! ### The opcode map -/

/-- One row of the opcode map: the words `w` with `w &&& mask = value` (30_encoding.md R74). -/
structure OpcodeRow where
  pattern : String
  mask : Word
  value : Word
  tier : Tier
  deriving DecidableEq, Repr

/-- Rows 1 to 18 of 30_encoding.md R74. -/
def opcodeRowsA : List OpcodeRow :=
  [⟨"0000", 0xFFFF, 0x0000, .a⟩, ⟨"00E0", 0xFFFF, 0x00E0, .a⟩, ⟨"00EE", 0xFFFF, 0x00EE, .a⟩,
   ⟨"1NNN", 0xF000, 0x1000, .a⟩, ⟨"2NNN", 0xF000, 0x2000, .a⟩, ⟨"3XNN", 0xF000, 0x3000, .a⟩,
   ⟨"4XNN", 0xF000, 0x4000, .a⟩, ⟨"5XY0", 0xF00F, 0x5000, .a⟩, ⟨"6XNN", 0xF000, 0x6000, .a⟩,
   ⟨"7XNN", 0xF000, 0x7000, .a⟩, ⟨"8XY0", 0xF00F, 0x8000, .a⟩, ⟨"8XY1", 0xF00F, 0x8001, .a⟩,
   ⟨"8XY2", 0xF00F, 0x8002, .a⟩, ⟨"8XY3", 0xF00F, 0x8003, .a⟩, ⟨"8XY4", 0xF00F, 0x8004, .a⟩,
   ⟨"8XY5", 0xF00F, 0x8005, .a⟩, ⟨"8XY6", 0xF00F, 0x8006, .a⟩, ⟨"8XY7", 0xF00F, 0x8007, .a⟩]

/-- Rows 19 to 35 of 30_encoding.md R74. -/
def opcodeRowsBC : List OpcodeRow :=
  [⟨"8XYE", 0xF00F, 0x800E, .c⟩, ⟨"9XY0", 0xF00F, 0x9000, .b⟩, ⟨"ANNN", 0xF000, 0xA000, .b⟩,
   ⟨"BNNN", 0xF000, 0xB000, .b⟩, ⟨"CXNN", 0xF000, 0xC000, .b⟩, ⟨"DXYN", 0xF000, 0xD000, .b⟩,
   ⟨"EX9E", 0xF0FF, 0xE09E, .b⟩, ⟨"EXA1", 0xF0FF, 0xE0A1, .b⟩, ⟨"FX07", 0xF0FF, 0xF007, .b⟩,
   ⟨"FX0A", 0xF0FF, 0xF00A, .b⟩, ⟨"FX15", 0xF0FF, 0xF015, .b⟩, ⟨"FX18", 0xF0FF, 0xF018, .b⟩,
   ⟨"FX1E", 0xF0FF, 0xF01E, .b⟩, ⟨"FX29", 0xF0FF, 0xF029, .b⟩, ⟨"FX33", 0xF0FF, 0xF033, .b⟩,
   ⟨"FX55", 0xF0FF, 0xF055, .b⟩, ⟨"FX65", 0xF0FF, 0xF065, .b⟩]

/-- The complete opcode map (30_encoding.md R74). -/
def opcodeTable : List OpcodeRow := opcodeRowsA ++ opcodeRowsBC

/-- A word matches a row (30_encoding.md R74). -/
def OpcodeRow.accepts (r : OpcodeRow) (w : Word) : Bool := w &&& r.mask == r.value

/-- A row is in force under the parameter `EXT_SHL_8XYE = ext`: the Tier C row only when it is set (30_encoding.md R76). -/
def OpcodeRow.enabled (ext : Bool) (r : OpcodeRow) : Bool := ext || r.tier != .c

/-- The number of an instruction's row in the opcode map, 1 to 35 (30_encoding.md R74, the column #). -/
def Instr.rowNumber : Instr → Nat
  | .nop => 1
  | .cls => 2
  | .ret => 3
  | .jp _ => 4
  | .call _ => 5
  | .seImm _ _ => 6
  | .sneImm _ _ => 7
  | .seReg _ _ => 8
  | .ldImm _ _ => 9
  | .addImm _ _ => 10
  | .ldReg _ _ => 11
  | .orReg _ _ => 12
  | .andReg _ _ => 13
  | .xorReg _ _ => 14
  | .addReg _ _ => 15
  | .subReg _ _ => 16
  | .shr _ _ => 17
  | .subnReg _ _ => 18
  | .shl _ _ => 19
  | .sneReg _ _ => 20
  | .ldI _ => 21
  | .jpV0 _ => 22
  | .rnd _ _ => 23
  | .drw _ _ _ => 24
  | .skp _ => 25
  | .sknp _ => 26
  | .ldVxDt _ => 27
  | .ldVxK _ => 28
  | .ldDtVx _ => 29
  | .ldStVx _ => 30
  | .addI _ => 31
  | .ldF _ => 32
  | .ldB _ => 33
  | .ldMemVx _ => 34
  | .ldVxMem _ => 35

/-! ### The opcode table's words -/

/-- The one 16-bit word that `nbits` bits of `w` stand for: an instruction is one word (30_encoding.md R70), numbered with
bit 0 its least significant bit (00_scope.md R8); a bit at `nbits` or above is 0. -/
def tableWord (nbits w : Nat) : Word := BitVec.ofNat 16 (w % 2 ^ nbits)

/-- The instruction that the decoder reads from a word of spec/opcode_table.json. The word is laid out high byte first
(20_memory.md R53). The table lists the parameter-gated row 8XYE too, so the decoder is asked as the machine that has
every row, `EXT_SHL_8XYE` set. DESIGN CHOICE (log 24, safe). -/
def decodeTableWord (nbits w : Nat) : Option Instr :=
  match decodeBytes true [highByte (tableWord nbits w), lowByte (tableWord nbits w)] with
  | .ok (i, _) => some i
  | .error _ => none

end Sys2Proof
end

