-- ==== Sys2Proof/Machine/Fetch.lean ====
section
/-! DEFINITION. Stages 1 and 2 of a step in `Running` (40_step_and_control_flow.md R90): fetch and decode. -/

namespace Sys2Proof.Machine

/-- The 16-bit word at address `a`, high byte first (20_memory.md R53). -/
def State.wordAt (s : State) (a : Nat) : Word := s.byteAt a ++ s.byteAt (a + 1)

/-- Stage 1: `MemRead(pc, 2)` (20_memory.md R53). -/
def State.fetchWord (s : State) : Except Fault Word :=
  match checkSpan s.pc.toNat 2 with
  | .ok _ => .ok (s.wordAt s.pc.toNat)
  | .error f => .error f

/-- Stage 2: a word that is no instruction raises `InvalidOpcode` (60_exceptions.md R182). -/
def State.decodeWord (s : State) (w : Word) : Except Fault Instr :=
  match decode s.params.extShl w with
  | .ok i => .ok i
  | .error _ => .error (.invalidOpcode w)

/-- Fetch, then decode: the order gives the errors their priority (60_exceptions.md R187). -/
def State.fetchInstr (s : State) : Except Fault Instr :=
  match s.fetchWord with
  | .ok w => s.decodeWord w
  | .error f => .error f

/-- The machine ready to run `w`: in `Running`, and with the parameter that gates 8XYE set when `w` is of that row
(30_encoding.md R76; log 24). -/
def State.readyFor (s : State) (w : Word) : State :=
  { s with
    mode := .running
    params := { s.params with extShl := s.params.extShl || (w &&& 0xF00F == 0x800E) } }

/-- The state with word `w` stored where the next fetch reads, at `pc` and `pc + 1`, and ready to run it (log 24). Where no
fetch at `pc` can succeed there is no place to store it, and the state stays as it is. -/
def State.placeWord (s : State) (w : Word) : State :=
  match s.writeSpan s.pc.toNat [highByte w, lowByte w] with
  | .ok t => t.readyFor w
  | .error _ => s

end Sys2Proof.Machine
end

