-- ==== Sys2Proof/Machine/Step.lean ====
section
/-! DEFINITION. One step (40_step_and_control_flow.md R90, R91), and the placing of a word where the next step fetches. -/

namespace Sys2Proof.Machine

/-- `step`: in `Running`, fetch, decode and execute one instruction (R90); in `AwaitingKey(x)`, sample the keypad (R91). -/
def step (s : State) : Host.Outcome State Fault Refusal :=
  match s.mode with
  | .running => orRaise s.fetchInstr (fun i => exec i s)
  | .awaitingKey x => .next (s.waitStep x)

/-- `s` with the instruction whose bits are `w` stored where the next step fetches (log 24). -/
def State.withFetchWord (s : State) (nbits w : Nat) : State := s.placeWord (tableWord nbits w)

end Sys2Proof.Machine
end

