-- ==== Sys2Proof/Machine/Events.lean ====
section
/-! DEFINITION. The host interface: the four atomic transitions (60_exceptions.md R195), what each returns, and what the
host can observe between them (10_state.md R38; 60_exceptions.md R185, R196, R202; 44_display.md R174). -/

namespace Sys2Proof.Machine

/-! ### tick and set_keys -/

/-- A timer's decrement: saturates at 0 (60_exceptions.md R193). -/
def countDown (b : Byte) : Byte := if b.toNat > 0 then b - 1 else b

/-- `tick` (60_exceptions.md R193): both timers, nothing else. -/
def State.tick (s : State) : State := { s with dt := countDown s.dt, st := countDown s.st }

/-- `set_keys(keys)` (60_exceptions.md R195): `K <- keys`. -/
def State.setKeys (s : State) (keys : Word) : State := { s with k := keys }

/-! ### reset_load -/

/-- Every element at its reset value and the ROM from 0x200 on (70_reset_and_hazards.md R210, R212). The parameters are
arguments of the model and stay; so does the count of `rnd` samples, since the input goes on being free (log 6). -/
def State.loaded (s : State) (rom : List Byte) : State :=
  (State.initial s.params s.draws).setBytes Config.progBase rom

/-- `reset_load(rom)` (70_reset_and_hazards.md R210); a ROM of more than 3584 bytes is refused (R214). -/
def State.resetLoad (s : State) (rom : List Byte) : Result :=
  if rom.length ≤ Config.maxRomLength then .next (s.loaded rom) else .refused (.oversizedRom rom.length)

/-! ### The four transitions -/

/-- What the host may invoke, one at a time, in any order and number (60_exceptions.md R194, R195). -/
inductive Transition where
  | resetLoad (rom : List Byte)
  | step
  | tick
  | setKeys (keys : Word)
  deriving DecidableEq, Repr

/-- What a transition returns (00_scope.md R10). -/
inductive Report where
  /-- `reset_load`, `tick` and `set_keys` return nothing. -/
  | nothing
  /-- `Ok(display_changed, waiting_key)`. -/
  | ok (flags : StepFlags)
  /-- `Err(kind)`. -/
  | err (f : Fault)
  deriving DecidableEq, Repr

/-- The state after a transition, with what it returned. -/
structure Driven where
  state : State
  report : Report
  deriving DecidableEq, Repr

/-- A step seen from the host: an error is reported and leaves the state as it was, so that the host may go on
(60_exceptions.md R186, R189; log 11). -/
def hostStep (s : State) : Except Refusal Driven :=
  match step s with
  | .next t => .ok ⟨t, .ok t.out⟩
  | .fault f => .ok ⟨s, .err f⟩
  | .refused r => .error r

/-- `reset_load` seen from the host. -/
def hostLoad (s : State) (rom : List Byte) : Except Refusal Driven :=
  match s.resetLoad rom with
  | .next t => .ok ⟨t, .nothing⟩
  | .fault f => .ok ⟨s, .err f⟩
  | .refused r => .error r

/-- One transition (60_exceptions.md R195). -/
def transition (tr : Transition) (s : State) : Except Refusal Driven :=
  match tr with
  | .resetLoad rom => hostLoad s rom
  | .step => hostStep s
  | .tick => .ok ⟨s.tick, .nothing⟩
  | .setKeys keys => .ok ⟨s.setKeys keys, .nothing⟩

/-- A schedule of the host: the state at its end and what each transition returned, in order (60_exceptions.md R194). -/
def drive : List Transition → State → Except Refusal (State × List Report)
  | [], s => .ok (s, [])
  | tr :: rest, s =>
    match transition tr s with
    | .error r => .error r
    | .ok d =>
      match drive rest d.state with
      | .error r => .error r
      | .ok (u, reports) => .ok (u, d.report :: reports)

/-! ### Observations -/

/-- The code of an error (60_exceptions.md R185; D5, log 13). -/
def Fault.code : Fault → BitVec 3
  | .outOfBounds _ => 1
  | .invalidOpcode _ => 2
  | .stackOverflow => 3
  | .stackUnderflow => 4

/-- The port `err`: 0 when there is no error (60_exceptions.md R185, R196). -/
def Report.code : Report → BitVec 3
  | .nothing => 0
  | .ok _ => 0
  | .err f => f.code

/-- The port `fb_data` at `fb_addr = p`: pixel `p = y * 64 + x` (44_display.md R174; 60_exceptions.md R196). -/
def State.fbData (s : State) (p : BitVec 11) : Bool := s.fb.pixel (p.toNat % 64) (p.toNat / 64)

/-- The snapshot of the framebuffer, row-major (44_display.md R174). -/
def State.snapshot (s : State) : List Bool := s.fb.toList.flatMap (fun row => row.toList)

/-- The port `st`: the sound timer's value and nothing else about sound (60_exceptions.md R202). -/
def State.stPort (s : State) : Byte := s.st

/-- The port `dt` (60_exceptions.md R196). -/
def State.dtPort (s : State) : Byte := s.dt

end Sys2Proof.Machine
end

