-- ==== Sys2Proof/Safety.lean ====
section
/-! DEFINITION. The words the statements use: when a step is safe, the invariant of every reachable state (10_state.md R25,
R36; 20_memory.md R50), and the frame of an instruction (10_state.md R20, the column "who writes it"). -/

namespace Sys2Proof.Machine

/-! ### Safe runs -/

/-- The step completes: it raises no error (60_exceptions.md R180). -/
def SafeStep (s : State) : Prop := ∃ t, step s = .next t

/-- `n` steps with no other transition between them, stopping at the first error. -/
def stepN : Nat → State → Result
  | 0, s => .next s
  | n + 1, s =>
    match step s with
    | .next t => stepN n t
    | .fault f => .fault f
    | .refused r => .refused r

/-- `n` steps complete. -/
def SafeFor (n : Nat) (s : State) : Prop := ∃ t, stepN n s = .next t

/-! ### The invariant of every reachable state -/

/-- What holds of every state a host can reach (10_state.md R25: pc is at most 0x10FE and a live stack entry at most 0x1000;
a wait is entered by an instruction that was fetched, so pc is then at most 0xFFE), with the canonical form of memory. -/
structure State.Inv (s : State) : Prop where
  /-- Memory is in canonical form and lists no address above 0xFFF (20_memory.md R50). -/
  memWf : Memory.wf s.params s.mem = true
  /-- `pc <= 0x10FE` (10_state.md R25). -/
  pcBound : s.pc.toNat ≤ 0x10FE
  /-- Every entry below SP was pushed as some `pc + 2 <= 0x1000` (10_state.md R25). -/
  liveBound : ∀ j : Fin 16, j.val < s.sp.val → s.stack[j].toNat ≤ 0x1000
  /-- During a wait pc still addresses the FX0A that was fetched (43_timer_key_random.md R155). -/
  waitBound : ∀ x, s.mode = .awaitingKey x → s.pc.toNat ≤ 0xFFE

/-! ### Frames -/

/-- The elements of the state (10_state.md R20), and the model's own three. -/
inductive Elem where
  | v | i | pc | dt | st | stack | sp | mem | fb | k | mode | kp | params | draws | out
  deriving DecidableEq, Repr

/-- The element is the same in both states. Memory is compared by reading every address. -/
def Elem.same (e : Elem) (s t : State) : Prop :=
  match e with
  | .v => ∀ r, t.readV r = s.readV r
  | .i => t.i = s.i
  | .pc => t.pc = s.pc
  | .dt => t.dt = s.dt
  | .st => t.st = s.st
  | .stack => t.stack = s.stack
  | .sp => t.sp = s.sp
  | .mem => ∀ a, t.byteAt a = s.byteAt a
  | .fb => t.fb = s.fb
  | .k => t.k = s.k
  | .mode => t.mode = s.mode
  | .kp => t.kp = s.kp
  | .params => t.params = s.params
  | .draws => t.draws = s.draws
  | .out => t.out = s.out

/-- Every element but those listed is the same in both states. -/
def Frame (changed : List Elem) (s t : State) : Prop := ∀ e, e ∉ changed → e.same s t

/-- Every register but those of `changed` is the same in both states. -/
def RegsBut (changed : Reg → Prop) (s t : State) : Prop := ∀ r, ¬ changed r → t.readV r = s.readV r

/-- Every byte of memory outside the `n` addresses from `base` is the same in both states. -/
def BytesOutside (base n : Nat) (s t : State) : Prop :=
  ∀ a, a < base ∨ base + n ≤ a → t.byteAt a = s.byteAt a

/-- The elements an instruction may change, pc and the returned flags aside: 10_state.md R20, "who writes it". -/
def writtenElems (p : Params) : Instr → List Elem
  | .nop => []
  | .cls => [.fb]
  | .ret => [.sp]
  | .jp _ => []
  | .call _ => [.stack, .sp]
  | .seImm _ _ => []
  | .sneImm _ _ => []
  | .seReg _ _ => []
  | .ldImm _ _ => [.v]
  | .addImm _ _ => [.v]
  | .ldReg _ _ => [.v]
  | .orReg _ _ => [.v]
  | .andReg _ _ => [.v]
  | .xorReg _ _ => [.v]
  | .addReg _ _ => [.v]
  | .subReg _ _ => [.v]
  | .shr _ _ => [.v]
  | .subnReg _ _ => [.v]
  | .shl _ _ => [.v]
  | .sneReg _ _ => []
  | .ldI _ => [.i]
  | .jpV0 _ => []
  | .rnd _ _ => [.v, .draws]
  | .drw _ _ _ => [.v, .fb]
  | .skp _ => []
  | .sknp _ => []
  | .ldVxDt _ => [.v]
  | .ldVxK _ => [.mode, .kp]
  | .ldDtVx _ => [.dt]
  | .ldStVx _ => [.st]
  | .addI _ => if p.fx1eSetsVF then [.i, .v] else [.i]
  | .ldF _ => [.i]
  | .ldB _ => [.mem]
  | .ldMemVx _ => if p.memIncrementI then [.mem, .i] else [.mem]
  | .ldVxMem _ => if p.memIncrementI then [.v, .i] else [.v]

/-- The registers an instruction may change (10_state.md R21, R22). -/
def writesReg (p : Params) : Instr → Reg → Bool
  | .nop, _ => false
  | .cls, _ => false
  | .ret, _ => false
  | .jp _, _ => false
  | .call _, _ => false
  | .seImm _ _, _ => false
  | .sneImm _ _, _ => false
  | .seReg _ _, _ => false
  | .ldImm x _, r => r == x
  | .addImm x _, r => r == x
  | .ldReg x _, r => r == x
  | .orReg x _, r => r == x
  | .andReg x _, r => r == x
  | .xorReg x _, r => r == x
  | .addReg x _, r => r == x || r == vf
  | .subReg x _, r => r == x || r == vf
  | .shr x _, r => r == x || r == vf
  | .subnReg x _, r => r == x || r == vf
  | .shl x _, r => r == x || r == vf
  | .sneReg _ _, _ => false
  | .ldI _, _ => false
  | .jpV0 _, _ => false
  | .rnd x _, r => r == x
  | .drw _ _ _, r => r == vf
  | .skp _, _ => false
  | .sknp _, _ => false
  | .ldVxDt x, r => r == x
  | .ldVxK _, _ => false
  | .ldDtVx _, _ => false
  | .ldStVx _, _ => false
  | .addI _, r => p.fx1eSetsVF && r == vf
  | .ldF _, _ => false
  | .ldB _, _ => false
  | .ldMemVx _, _ => false
  | .ldVxMem x, r => decide (r ≤ x)

/-- How many bytes an instruction stores, from the address `State.dataBase` on (20_memory.md R65). -/
def storeCount : Instr → Nat
  | .ldB _ => 3
  | .ldMemVx x => x.val + 1
  | .nop => 0
  | .cls => 0
  | .ret => 0
  | .jp _ => 0
  | .call _ => 0
  | .seImm _ _ => 0
  | .sneImm _ _ => 0
  | .seReg _ _ => 0
  | .ldImm _ _ => 0
  | .addImm _ _ => 0
  | .ldReg _ _ => 0
  | .orReg _ _ => 0
  | .andReg _ _ => 0
  | .xorReg _ _ => 0
  | .addReg _ _ => 0
  | .subReg _ _ => 0
  | .shr _ _ => 0
  | .subnReg _ _ => 0
  | .shl _ _ => 0
  | .sneReg _ _ => 0
  | .ldI _ => 0
  | .jpV0 _ => 0
  | .rnd _ _ => 0
  | .drw _ _ _ => 0
  | .skp _ => 0
  | .sknp _ => 0
  | .ldVxDt _ => 0
  | .ldVxK _ => 0
  | .ldDtVx _ => 0
  | .ldStVx _ => 0
  | .addI _ => 0
  | .ldF _ => 0
  | .ldVxMem _ => 0

/-! ### Two runs compared -/

/-- Applies a change of state to the outcome of a step. -/
def mapState (f : State → State) : Result → Result
  | .next t => .next (f t)
  | .fault e => .fault e
  | .refused r => .refused r

/-- The two states agree but for the dead entries of the stack, those at index SP and above (10_state.md R28). -/
def LiveEq (s t : State) : Prop :=
  { s with stack := t.stack } = t ∧ ∀ j : Fin 16, j.val < s.sp.val → s.stack[j] = t.stack[j]

/-- The outcomes are of one kind, with states that agree but for dead stack entries. -/
def LiveEqResult : Result → Result → Prop
  | .next s, .next t => LiveEq s t
  | .fault e, .fault f => e = f
  | .refused q, .refused r => q = r
  | .next _, .fault _ => False
  | .next _, .refused _ => False
  | .fault _, .next _ => False
  | .fault _, .refused _ => False
  | .refused _, .next _ => False
  | .refused _, .fault _ => False

end Sys2Proof.Machine
end

