-- ==== Sys2Proof/Certificates/Slice0/Obligations.lean ====
section
/-! DEFINITION. The statements for the provers. Each docstring names the rule of spec/ that the statement formalises. A
statement about a Tier B instruction, or about another of the spec's own decisions D1 to D27, says so: the spec marks those
as its choice, not the source's (log 15). `t.out` is the field that holds what a step returned (40_step_and_control_flow.md
R90; log 12). No statement fixes a parameter of 00_scope.md R7 or a value of the input `rnd`
unless its hypotheses say so: the parameters stand in the state, and `rnd` is a constant nothing can evaluate. -/

open Sys2Proof Sys2Proof.Machine

/-! ### Encoding -/

/-- Decoding the word, or the two bytes, of a well-formed instruction gives it back, with every operand at every value
(30_encoding.md R71 to R74), the ignored Y of SHR and SHL among them (log 31). -/
def Obligations.DecodeOfEncodeIsTheInstruction : Prop :=
  ∀ (ext : Bool) (i : Instr), i.wellFormed ext = true →
    decode ext (encode i) = .ok i ∧
    ∀ rest : List Byte, decodeBytes ext (encodeBytes i ++ rest) = .ok (i, rest)

/-- A word that decodes is the word of the term of `Instr` it decodes to, and that term is well formed: no two words share an
`Instr` term (30_encoding.md R71, R73, R74). Words of 8XY6, and of 8XYE, that differ in Y alone are one operation of the
hardware (30_encoding.md R72, R77): SHR and SHL keep their ignored Y in the term, which is the model's choice (log 31). -/
def Obligations.EncodeOfDecodeIsTheWord : Prop :=
  ∀ (ext : Bool) (w : Word) (i : Instr), decode ext w = .ok i → encode i = w ∧ i.wellFormed ext = true

/-- The decoder accepts a word exactly when an enabled row of the opcode map accepts it; no word is accepted by two rows; and
the instruction it gives is that row's (30_encoding.md R73, R74, R83). -/
def Obligations.DecoderAcceptsExactlyTheOpcodeMap : Prop :=
  ∀ (ext : Bool) (w : Word),
    ((∃ i, decode ext w = .ok i) ↔ ∃ r ∈ opcodeTable, r.enabled ext = true ∧ r.accepts w = true) ∧
    (∀ r ∈ opcodeTable, ∀ q ∈ opcodeTable, r.accepts w = true → q.accepts w = true → r = q) ∧
    (∀ i, decode ext w = .ok i → ∃ r, opcodeTable[i.rowNumber - 1]? = some r ∧ r.accepts w = true)

/-- The words that are no instruction are exactly those of the list of 30_encoding.md R75 (with R76 for 8XYE). -/
def Obligations.InvalidWordsAreExactlyTheListedOnes : Prop :=
  ∀ (ext : Bool) (w : Word), (∃ r, decode ext w = .error r) ↔
    (w.toNat / 4096 = 0x0 ∧ w ≠ 0x0000 ∧ w ≠ 0x00E0 ∧ w ≠ 0x00EE) ∨
    (w.toNat / 4096 = 0x5 ∧ w.toNat % 16 ≠ 0) ∨
    (w.toNat / 4096 = 0x8 ∧ w.toNat % 16 ∈ [0x8, 0x9, 0xA, 0xB, 0xC, 0xD, 0xF]) ∨
    (w.toNat / 4096 = 0x8 ∧ w.toNat % 16 = 0xE ∧ ext = false) ∨
    (w.toNat / 4096 = 0x9 ∧ w.toNat % 16 ≠ 0) ∨
    (w.toNat / 4096 = 0xE ∧ w.toNat % 256 ∉ [0x9E, 0xA1]) ∨
    (w.toNat / 4096 = 0xF ∧ w.toNat % 256 ∉ [0x07, 0x0A, 0x15, 0x18, 0x1E, 0x29, 0x33, 0x55, 0x65])

/-- A few words written out from the opcode map decode to the instruction they stand for (30_encoding.md R74;
95_test_vectors.md, the decode-only vectors). -/
def Obligations.SampleWordsDecodeAsTheMapSays : Prop :=
  decode false 0x00E0 = .ok .cls ∧ decode false 0x2FFF = .ok (.call 0xFFF) ∧
  decode false 0x5AB0 = .ok (.seReg 0xA 0xB) ∧ decode false 0x8AB6 = .ok (.shr 0xA 0xB) ∧
  decode false 0xA300 = .ok (.ldI 0x300) ∧ decode false 0xDAB2 = .ok (.drw 0xA 0xB 2) ∧
  decode false 0xEFA1 = .ok (.sknp 0xF) ∧ decode false 0xF265 = .ok (.ldVxMem 2) ∧
  decode false 0x812E = .error .op8XYE ∧ decode true 0x812E = .ok (.shl 1 2)

/-! ### The step -/

/-- In `Running`, when the two bytes at pc decode to an instruction, the step is that instruction's execution, and nothing
is added around it (40_step_and_control_flow.md R90). -/
def Obligations.StepRunsTheDecodedInstruction : Prop :=
  ∀ (s : State) (i : Instr), s.mode = .running → s.pc.toNat ≤ 0xFFE →
    decode s.params.extShl (s.byteAt s.pc.toNat ++ s.byteAt (s.pc.toNat + 1)) = .ok i → step s = exec i s

/-- An instruction's word placed where the machine fetches is what the next step runs, whatever the instruction
(20_memory.md R53; 40_step_and_control_flow.md R90; the placing is the model's, log 24). -/
def Obligations.PlacedInstructionIsRun : Prop :=
  ∀ (s : State) (i : Instr), s.pc.toNat ≤ 0xFFE → Memory.wf s.params s.mem = true →
    step (s.withFetchWord 16 (encode i).toNat) = exec i (s.withFetchWord 16 (encode i).toNat)

/-- The fetch is big-endian, succeeds exactly up to pc = 0xFFE whether pc is even or odd, and otherwise reports the first
byte out of range (20_memory.md R53; that no pc is misaligned is the spec's decision D3, log 18, and the address reported is
its diagnostic value, D5, log 13). -/
def Obligations.FetchIsBigEndianAndBounded : Prop :=
  ∀ s : State,
    (s.pc.toNat ≤ 0xFFE → ∃ w : Word, s.fetchWord = .ok w ∧
      w.toNat = (s.byteAt s.pc.toNat).toNat * 256 + (s.byteAt (s.pc.toNat + 1)).toNat) ∧
    (0xFFF ≤ s.pc.toNat → s.mode = .running →
      step s = .fault (.outOfBounds (if s.pc.toNat = 0xFFF then s.pc.toNat + 1 else s.pc.toNat)))

/-- `OutOfBounds` is raised by, and only by, the fetch, DXYN, FX33, FX55 and FX65, each exactly under its condition
(60_exceptions.md R181). -/
def Obligations.OutOfBoundsRaisedExactlyWhereListed : Prop :=
  ∀ s : State, (∃ a, step s = .fault (.outOfBounds a)) ↔
    s.mode = .running ∧
      (0xFFF ≤ s.pc.toNat ∨
        (∃ x y n, s.fetchInstr = .ok (.drw x y n) ∧ n.val > 0 ∧ s.i.toNat + n.val - 1 > 0xFFF) ∨
        (∃ x, s.fetchInstr = .ok (.ldB x) ∧ s.i.toNat + 2 > 0xFFF) ∨
        (∃ x, (s.fetchInstr = .ok (.ldMemVx x) ∨ s.fetchInstr = .ok (.ldVxMem x)) ∧ s.i.toNat + x.val > 0xFFF))

/-- `InvalidOpcode` is raised exactly by a `Running` step whose fetched word decodes to no instruction
(60_exceptions.md R182). -/
def Obligations.InvalidOpcodeRaisedExactlyAtDecode : Prop :=
  ∀ (s : State) (w : Word), step s = .fault (.invalidOpcode w) ↔
    s.mode = .running ∧ s.fetchWord = .ok w ∧ ∃ r, decode s.params.extShl w = .error r

/-- `StackOverflow` is raised exactly by CALL with SP = 16, `StackUnderflow` exactly by RET with SP = 0
(60_exceptions.md R183, R184). -/
def Obligations.StackErrorsRaisedExactlyByCallAndRet : Prop :=
  ∀ s : State,
    (step s = .fault .stackOverflow ↔
      s.mode = .running ∧ s.sp.val = 16 ∧ ∃ nnn, s.fetchInstr = .ok (.call nnn)) ∧
    (step s = .fault .stackUnderflow ↔ s.mode = .running ∧ s.sp.val = 0 ∧ s.fetchInstr = .ok .ret)

/-- After an error every schedule without `reset_load` goes on to report that same error and nothing else, and changes no
element but DT, ST and K: errors are precise and repeat (60_exceptions.md R186, R189; the spec's decisions D4 and D27). -/
def Obligations.ErrorRepeatsUntilResetLoad : Prop :=
  ∀ (s : State) (f : Fault) (schedule : List Transition), step s = .fault f →
    (∀ rom, Transition.resetLoad rom ∉ schedule) →
    ∃ (u : State) (reports : List Report), drive schedule s = .ok (u, reports) ∧ step u = .fault f ∧
      Frame [.dt, .st, .k] s u ∧ ∀ r ∈ reports, r = .nothing ∨ r = .err f

/-- An error is reported to the host with its code and leaves the state as it was; a step that completes reports code 0
(60_exceptions.md R185, the spec's decision D5; R186). -/
def Obligations.ErrorsAreReportedWithTheirCodes : Prop :=
  ∀ s : State,
    (∀ t, step s = .next t → ∃ d, hostStep s = .ok d ∧ d.state = t ∧ d.report.code = 0) ∧
    (∀ f, step s = .fault f → ∃ d, hostStep s = .ok d ∧ d.state = s ∧ d.report.code =
      (match f with
        | .outOfBounds _ => 1
        | .invalidOpcode _ => 2
        | .stackOverflow => 3
        | .stackUnderflow => 4))

/-! ### Invariants -/

/-- The invariant holds at reset (10_state.md R25, R39). -/
def Obligations.InvariantHoldsAtReset : Prop := State.reset.Inv

/-- Every step, and every transition of the host, keeps the invariant: pc stays at most 0x10FE, a live stack entry at most
0x1000, pc at most 0xFFE during a wait, memory canonical (10_state.md R25; 20_memory.md R50; 60_exceptions.md R195). -/
def Obligations.EveryStepKeepsTheInvariant : Prop :=
  ∀ s : State, s.Inv →
    (∀ t, step s = .next t → t.Inv) ∧ ∀ (tr : Transition) (d : Driven), transition tr s = .ok d → d.state.Inv

/-! ### Frames -/

/-- An instruction that completes changes only pc, the returned flags and the elements that its rule writes
(10_state.md R20, "who writes it"). -/
def Obligations.InstructionsChangeOnlyTheElementsTheyWrite : Prop :=
  ∀ (i : Instr) (s t : State), exec i s = .next t → Frame (.pc :: .out :: writtenElems s.params i) s t

/-- An instruction that completes changes only its destination registers, and VF where it writes a flag
(10_state.md R21, R22). -/
def Obligations.InstructionsChangeOnlyTheirRegisters : Prop :=
  ∀ (i : Instr) (s t : State), exec i s = .next t → RegsBut (fun r => writesReg s.params i r = true) s t

/-- An instruction that completes changes only the bytes it stores, the `storeCount` addresses from I on, and none at all
where it stores nothing (20_memory.md R56, R65; 42_index_memory.md R136). -/
def Obligations.InstructionsChangeOnlyTheBytesTheyStore : Prop :=
  ∀ (i : Instr) (s t : State), exec i s = .next t →
    BytesOutside s.dataBase (storeCount i) s t ∧ (storeCount i = 0 → ∀ a, t.byteAt a = s.byteAt a)

/-! ### Control flow (40_step_and_control_flow.md) -/

/-- NOP advances pc by 2 and changes nothing else, and only the word 0x0000 is NOP (R93). -/
def Obligations.NopOnlyAdvancesPc : Prop :=
  (∀ s : State, ∃ t, exec .nop s = .next t ∧ t.pc = s.pc + 2 ∧ Frame [.pc, .out] s t) ∧
  (∀ (ext : Bool) (w : Word), decode ext w = .ok .nop ↔ w = 0x0000) ∧
  (∀ ext : Bool, decode ext 0x0001 = .error .sys0NNN)

/-- JP loads pc with NNN, and a target of 0xFFF is reported by the next fetch (R95). -/
def Obligations.JpLoadsTheTarget : Prop :=
  ∀ (nnn : Addr) (s : State), ∃ t, exec (.jp nnn) s = .next t ∧ t.pc.toNat = nnn.toNat ∧
    Frame [.pc, .out] s t ∧ (nnn = 0xFFF → s.mode = .running → ∃ a, step t = .fault (.outOfBounds a))

/-- JP V0 loads pc with NNN + V0, not reduced modulo 4096, and a target above 0xFFE is reported by the next fetch (R101,
Tier B: the spec's decisions D1 and D14, log 15). -/
def Obligations.JpV0LoadsTheSumUnreduced : Prop :=
  ∀ (nnn : Addr) (s : State), ∃ t, exec (.jpV0 nnn) s = .next t ∧ t.pc.toNat = nnn.toNat + (s.readV 0).toNat ∧
    t.out = ⟨false, false⟩ ∧ Frame [.pc, .out] s t ∧
    (nnn.toNat + (s.readV 0).toNat > 0xFFE → s.mode = .running → ∃ a, step t = .fault (.outOfBounds a))

/-- CALL with room on the stack pushes the address of the next instruction and jumps; with SP = 16 it raises
`StackOverflow` (R96; 10_state.md R29). -/
def Obligations.CallPushesTheNextAddress : Prop :=
  ∀ (nnn : Addr) (s : State),
    (s.sp.val < 16 → ∃ t, exec (.call nnn) s = .next t ∧ t.sp.val = s.sp.val + 1 ∧
      (∀ j : Fin 16, t.stack[j] = if j.val = s.sp.val then s.pc + 2 else s.stack[j]) ∧
      t.pc.toNat = nnn.toNat ∧ Frame [.stack, .sp, .pc, .out] s t) ∧
    (s.sp.val = 16 → exec (.call nnn) s = .fault .stackOverflow)

/-- RET pops the top entry into pc and leaves the array as it is; with SP = 0 it raises `StackUnderflow`
(R94; 10_state.md R30). -/
def Obligations.RetPopsTheTopEntry : Prop :=
  ∀ s : State,
    (∀ j : Fin 16, s.sp.val = j.val + 1 → ∃ t, exec .ret s = .next t ∧ t.pc = s.stack[j] ∧ t.sp.val = j.val ∧
      Frame [.sp, .pc, .out] s t) ∧
    (s.sp.val = 0 → exec .ret s = .fault .stackUnderflow)

/-- A CALL followed by a RET comes back to the instruction after the CALL, with the depth of the stack and every live entry
as before (R94, R96; the source's stack round trip, 95_test_vectors.md T5). -/
def Obligations.CallThenRetComesBack : Prop :=
  ∀ (nnn : Addr) (s t : State), exec (.call nnn) s = .next t →
    ∃ u, exec .ret t = .next u ∧ u.pc = s.pc + 2 ∧ u.sp = s.sp ∧
      (∀ j : Fin 16, j.val < s.sp.val → u.stack[j] = s.stack[j]) ∧ Frame [.stack, .pc, .out] s u

/-- SE and SNE with an immediate skip exactly when the register equals, or differs from, the immediate (R97, R98). -/
def Obligations.ImmediateSkipsCompareAndSkip : Prop :=
  ∀ (x : Reg) (nn : Byte) (s : State),
    (∃ t, exec (.seImm x nn) s = .next t ∧ t.pc = (if s.readV x = nn then s.pc + 4 else s.pc + 2) ∧
      Frame [.pc, .out] s t) ∧
    (∃ t, exec (.sneImm x nn) s = .next t ∧ t.pc = (if s.readV x = nn then s.pc + 2 else s.pc + 4) ∧
      Frame [.pc, .out] s t)

/-- SE Vx, Vy skips exactly when the two registers are equal, always when they are the same register (R99). -/
def Obligations.RegisterEqualSkips : Prop :=
  ∀ (x y : Reg) (s : State), ∃ t, exec (.seReg x y) s = .next t ∧
    t.pc = (if s.readV x = s.readV y then s.pc + 4 else s.pc + 2) ∧ (x = y → t.pc = s.pc + 4) ∧
    Frame [.pc, .out] s t

/-- SNE Vx, Vy skips exactly when the two registers differ, never when they are the same register (R100, Tier B: the
spec's decision D1, log 15). -/
def Obligations.RegisterUnequalSkips : Prop :=
  ∀ (x y : Reg) (s : State), ∃ t, exec (.sneReg x y) s = .next t ∧
    t.pc = (if s.readV x = s.readV y then s.pc + 2 else s.pc + 4) ∧ (x = y → t.pc = s.pc + 2) ∧
    t.out = ⟨false, false⟩ ∧ Frame [.pc, .out] s t

/-! ### The ALU (41_alu.md) -/

/-- LD Vx, nn and LD Vx, Vy load the destination, VF like any other, and no other register (R111, R113). -/
def Obligations.RegisterLoadsLoadOnlyTheDestination : Prop :=
  ∀ (x y : Reg) (nn : Byte) (s : State),
    (∃ t, exec (.ldImm x nn) s = .next t ∧ t.readV x = nn ∧ RegsBut (· = x) s t ∧
      t.pc = s.pc + 2 ∧ Frame [.v, .pc, .out] s t) ∧
    (∃ t, exec (.ldReg x y) s = .next t ∧ t.readV x = s.readV y ∧ RegsBut (· = x) s t ∧
      t.pc = s.pc + 2 ∧ Frame [.v, .pc, .out] s t)

/-- ADD Vx, nn wraps modulo 256 and writes no flag: VF changes only when it is the destination (R112). -/
def Obligations.AddImmediateWrapsWithoutFlag : Prop :=
  ∀ (x : Reg) (nn : Byte) (s : State), ∃ t, exec (.addImm x nn) s = .next t ∧
    (t.readV x).toNat = ((s.readV x).toNat + nn.toNat) % 256 ∧ RegsBut (· = x) s t ∧
    t.pc = s.pc + 2 ∧ Frame [.v, .pc, .out] s t

/-- OR, AND and XOR act bit by bit and write no flag (R114, R115, R116). -/
def Obligations.LogicActsBitwiseWithoutFlag : Prop :=
  ∀ (x y : Reg) (s : State),
    (∃ t, exec (.orReg x y) s = .next t ∧
      (∀ k, k < 8 → (t.readV x).getLsbD k = ((s.readV x).getLsbD k || (s.readV y).getLsbD k)) ∧
      RegsBut (· = x) s t ∧ t.pc = s.pc + 2 ∧ Frame [.v, .pc, .out] s t) ∧
    (∃ t, exec (.andReg x y) s = .next t ∧
      (∀ k, k < 8 → (t.readV x).getLsbD k = ((s.readV x).getLsbD k && (s.readV y).getLsbD k)) ∧
      RegsBut (· = x) s t ∧ t.pc = s.pc + 2 ∧ Frame [.v, .pc, .out] s t) ∧
    (∃ t, exec (.xorReg x y) s = .next t ∧
      (∀ k, k < 8 → (t.readV x).getLsbD k = ((s.readV x).getLsbD k ^^ (s.readV y).getLsbD k)) ∧
      RegsBut (· = x) s t ∧ t.pc = s.pc + 2 ∧ Frame [.v, .pc, .out] s t)

/-- ADD Vx, Vy: the sum modulo 256, and VF the carry, written last from the old operands (R117; 10_state.md R22). -/
def Obligations.AddSetsCarryLast : Prop :=
  ∀ (x y : Reg) (s : State), ∃ t, exec (.addReg x y) s = .next t ∧
    (x ≠ vf → (t.readV x).toNat = ((s.readV x).toNat + (s.readV y).toNat) % 256) ∧
    t.readV vf = (if (s.readV x).toNat + (s.readV y).toNat > 255 then 1 else 0) ∧
    RegsBut (fun r => r = x ∨ r = vf) s t ∧ t.pc = s.pc + 2 ∧ Frame [.v, .pc, .out] s t

/-- SUB Vx, Vy: VX - VY modulo 256, and VF 1 when there is no borrow, written last from the old operands (R118;
10_state.md R22). -/
def Obligations.SubSetsNoBorrowLast : Prop :=
  ∀ (x y : Reg) (s : State), ∃ t, exec (.subReg x y) s = .next t ∧
    (x ≠ vf → ((t.readV x).toNat : Int) = ((s.readV x).toNat - (s.readV y).toNat : Int) % 256) ∧
    t.readV vf = (if (s.readV x).toNat ≥ (s.readV y).toNat then 1 else 0) ∧
    RegsBut (fun r => r = x ∨ r = vf) s t ∧ t.pc = s.pc + 2 ∧ Frame [.v, .pc, .out] s t

/-- SUBN Vx, Vy: VY - VX modulo 256, and VF 1 when there is no borrow, written last from the old operands (R120;
10_state.md R22). -/
def Obligations.SubnSetsNoBorrowLast : Prop :=
  ∀ (x y : Reg) (s : State), ∃ t, exec (.subnReg x y) s = .next t ∧
    (x ≠ vf → ((t.readV x).toNat : Int) = ((s.readV y).toNat - (s.readV x).toNat : Int) % 256) ∧
    t.readV vf = (if (s.readV y).toNat ≥ (s.readV x).toNat then 1 else 0) ∧
    RegsBut (fun r => r = x ∨ r = vf) s t ∧ t.pc = s.pc + 2 ∧ Frame [.v, .pc, .out] s t

/-- SHR Vx halves VX in place whatever the Y field, and VF is the old bit 0, written last (R119; 10_state.md R22). -/
def Obligations.ShrPutsTheLowBitInVf : Prop :=
  ∀ (x y : Reg) (s : State), ∃ t, exec (.shr x y) s = .next t ∧
    (x ≠ vf → (t.readV x).toNat = (s.readV x).toNat / 2) ∧ (t.readV vf).toNat = (s.readV x).toNat % 2 ∧
    RegsBut (fun r => r = x ∨ r = vf) s t ∧ t.pc = s.pc + 2 ∧ Frame [.v, .pc, .out] s t

/-- SHL Vx is decoded only under `EXT_SHL_8XYE`; it doubles VX modulo 256 in place whatever the Y field, and VF is the old
bit 7, written last (R121, Tier C: the spec's decision D2, log 26). -/
def Obligations.ShlPutsTheHighBitInVf : Prop :=
  ∀ (x y : Reg) (s : State),
    (decode true (encode (.shl x y)) = .ok (.shl x y) ∧ decode false (encode (.shl x y)) = .error .op8XYE) ∧
    ∃ t, exec (.shl x y) s = .next t ∧
      (x ≠ vf → (t.readV x).toNat = (s.readV x).toNat * 2 % 256) ∧ (t.readV vf).toNat = (s.readV x).toNat / 128 ∧
      RegsBut (fun r => r = x ∨ r = vf) s t ∧ t.pc = s.pc + 2 ∧ t.out = ⟨false, false⟩ ∧ Frame [.v, .pc, .out] s t

/-! ### Index register and data memory (42_index_memory.md, Tier B: the spec's decision D1, log 15) -/

/-- ADD I, Vx adds modulo 2^16; VF is the 12-bit overflow when `FX1E_SETS_VF` is set and untouched when it is not (R131; the
spec's decisions D13 and D20). -/
def Obligations.AddIWrapsAtSixteenBits : Prop :=
  ∀ (x : Reg) (s : State), ∃ t, exec (.addI x) s = .next t ∧
    t.i.toNat = (s.i.toNat + (s.readV x).toNat) % 65536 ∧
    (s.params.fx1eSetsVF = true → t.readV vf = if s.i.toNat + (s.readV x).toNat > 0xFFF then 1 else 0) ∧
    RegsBut (fun r => s.params.fx1eSetsVF = true ∧ r = vf) s t ∧
    t.pc = s.pc + 2 ∧ t.out = ⟨false, false⟩ ∧ Frame [.i, .v, .pc, .out] s t

/-- LD I loads I with NNN; LD F points I at the glyph of the digit in VX's low nibble, whatever the font's place, at most
0x1FB (R130, R132; the spec's decision D9, log 17). -/
def Obligations.IndexLoadsLoadAnAddress : Prop :=
  ∀ (nnn : Addr) (x : Reg) (s : State),
    (∃ t, exec (.ldI nnn) s = .next t ∧ t.i.toNat = nnn.toNat ∧
      t.pc = s.pc + 2 ∧ t.out = ⟨false, false⟩ ∧ Frame [.i, .pc, .out] s t) ∧
    (∃ t, exec (.ldF x) s = .next t ∧
      t.i.toNat = s.params.fontBase.val + 5 * ((s.readV x).toNat % 16) ∧ t.i.toNat ≤ 0x1FB ∧
      t.pc = s.pc + 2 ∧ t.out = ⟨false, false⟩ ∧ Frame [.i, .pc, .out] s t)

/-- LD B stores the three decimal digits of VX at I, I + 1, I + 2, or raises `OutOfBounds` with nothing written (R133; the
spec's decisions D4 and D26). -/
def Obligations.BcdStoresTheThreeDigits : Prop :=
  ∀ (x : Reg) (s : State), Memory.wf s.params s.mem = true →
    (s.i.toNat + 2 ≤ 0xFFF → ∃ t, exec (.ldB x) s = .next t ∧
      (t.byteAt s.i.toNat).toNat = (s.readV x).toNat / 100 ∧
      (t.byteAt (s.i.toNat + 1)).toNat = (s.readV x).toNat / 10 % 10 ∧
      (t.byteAt (s.i.toNat + 2)).toNat = (s.readV x).toNat % 10 ∧
      BytesOutside s.dataBase 3 s t ∧ t.pc = s.pc + 2 ∧ t.out = ⟨false, false⟩ ∧ Frame [.mem, .pc, .out] s t) ∧
    (s.i.toNat + 2 > 0xFFF → exec (.ldB x) s = .fault (.outOfBounds (max s.i.toNat 0x1000)))

/-- LD [I], Vx stores V0 to VX at I to I + X and post-increments I exactly under `MEM_INCREMENT_I`, or raises `OutOfBounds`
with nothing written (R134; the spec's decisions D4, D12, D26). -/
def Obligations.BlockStoreWritesTheRegisters : Prop :=
  ∀ (x : Reg) (s : State), Memory.wf s.params s.mem = true →
    (s.i.toNat + x.val ≤ 0xFFF → ∃ t, exec (.ldMemVx x) s = .next t ∧
      (∀ r : Reg, r ≤ x → t.byteAt (s.i.toNat + r.val) = s.readV r) ∧ BytesOutside s.dataBase (x.val + 1) s t ∧
      t.i.toNat = (if s.params.memIncrementI then s.i.toNat + x.val + 1 else s.i.toNat) ∧
      t.pc = s.pc + 2 ∧ t.out = ⟨false, false⟩ ∧ Frame [.mem, .i, .pc, .out] s t) ∧
    (s.i.toNat + x.val > 0xFFF → exec (.ldMemVx x) s = .fault (.outOfBounds (max s.i.toNat 0x1000)))

/-- LD Vx, [I] loads V0 to VX from I to I + X and post-increments I exactly under `MEM_INCREMENT_I`, or raises `OutOfBounds`
with no register written (R135; the spec's decisions D4, D12, D26). -/
def Obligations.BlockLoadReadsTheBytes : Prop :=
  ∀ (x : Reg) (s : State),
    (s.i.toNat + x.val ≤ 0xFFF → ∃ t, exec (.ldVxMem x) s = .next t ∧
      (∀ r : Reg, r ≤ x → t.readV r = s.byteAt (s.i.toNat + r.val)) ∧ RegsBut (· ≤ x) s t ∧
      t.i.toNat = (if s.params.memIncrementI then s.i.toNat + x.val + 1 else s.i.toNat) ∧
      t.pc = s.pc + 2 ∧ t.out = ⟨false, false⟩ ∧ Frame [.v, .i, .pc, .out] s t) ∧
    (s.i.toNat + x.val > 0xFFF → exec (.ldVxMem x) s = .fault (.outOfBounds (max s.i.toNat 0x1000)))

/-- A block stored is the block loaded back: after LD [I], Vx, with I set back to where it was and any registers, LD Vx, [I]
gives the registers their stored values (R134, R135; 20_memory.md R56, R59). -/
def Obligations.BlockStoreThenLoadGivesTheRegistersBack : Prop :=
  ∀ (x : Reg) (s t : State) (v : Vector Byte 16), Memory.wf s.params s.mem = true → exec (.ldMemVx x) s = .next t →
    ∃ u, exec (.ldVxMem x) { t with i := s.i, v := v } = .next u ∧ ∀ r : Reg, r ≤ x → u.readV r = s.readV r

/-- A store to the two bytes that follow the storing instruction is what the very next fetch reads (20_memory.md R61). -/
def Obligations.StoreIsSeenByTheNextFetch : Prop :=
  ∀ (x : Reg) (s t : State), Memory.wf s.params s.mem = true → 1 ≤ x.val → s.i.toNat = s.pc.toNat + 2 →
    exec (.ldMemVx x) s = .next t → t.fetchWord = .ok (s.readV 0 ++ s.readV 1)

/-! ### Timers, keypad, random (43_timer_key_random.md, Tier B: the spec's decision D1, log 15) -/

/-- LD Vx, DT reads the delay timer; LD DT, Vx and LD ST, Vx write the timers (R150, R151, R152). -/
def Obligations.TimersAreReadAndWritten : Prop :=
  ∀ (x : Reg) (s : State),
    (∃ t, exec (.ldVxDt x) s = .next t ∧ t.readV x = s.dt ∧ RegsBut (· = x) s t ∧
      t.pc = s.pc + 2 ∧ t.out = ⟨false, false⟩ ∧ Frame [.v, .pc, .out] s t) ∧
    (∃ t, exec (.ldDtVx x) s = .next t ∧ t.dt = s.readV x ∧
      t.pc = s.pc + 2 ∧ t.out = ⟨false, false⟩ ∧ Frame [.dt, .pc, .out] s t) ∧
    (∃ t, exec (.ldStVx x) s = .next t ∧ t.st = s.readV x ∧
      t.pc = s.pc + 2 ∧ t.out = ⟨false, false⟩ ∧ Frame [.st, .pc, .out] s t)

/-- SKP skips exactly when the key named by VX's low nibble is down, SKNP exactly when it is up (R153, R154, R157; the
spec's decision D9). -/
def Obligations.KeySkipsTestTheKeyLevel : Prop :=
  ∀ (x : Reg) (s : State),
    (∃ t, exec (.skp x) s = .next t ∧
      t.pc = (if s.k.getLsbD ((s.readV x).toNat % 16) then s.pc + 4 else s.pc + 2) ∧
      t.out = ⟨false, false⟩ ∧ Frame [.pc, .out] s t) ∧
    (∃ t, exec (.sknp x) s = .next t ∧
      t.pc = (if s.k.getLsbD ((s.readV x).toNat % 16) then s.pc + 2 else s.pc + 4) ∧
      t.out = ⟨false, false⟩ ∧ Frame [.pc, .out] s t)

/-- LD Vx, K enters the wait: it latches X and the keys already down, leaves pc and V, and reports waiting_key, even when a
key is down (R155; the spec's decision D8). -/
def Obligations.KeyWaitIsEnteredWithoutCompleting : Prop :=
  ∀ (x : Reg) (s : State), ∃ t, exec (.ldVxK x) s = .next t ∧ t.mode = .awaitingKey x ∧ t.kp = s.k ∧
    t.out = ⟨false, true⟩ ∧ Frame [.mode, .kp, .out] s t

/-- A step of the wait: the lowest key that is down now and was up at the previous sample completes the instruction; with no
such key the wait goes on and only the sample changes (R156; the spec's decision D8). -/
def Obligations.WaitEndsWithTheLowestNewKey : Prop :=
  ∀ (x : Reg) (s : State), s.mode = .awaitingKey x →
    (∀ n : Fin 16, s.k.getLsbD n.val = true → s.kp.getLsbD n.val = false →
      (∀ m : Fin 16, m < n → ¬ (s.k.getLsbD m.val = true ∧ s.kp.getLsbD m.val = false)) →
      ∃ t, step s = .next t ∧ (t.readV x).toNat = n.val ∧ RegsBut (· = x) s t ∧ t.pc = s.pc + 2 ∧
        t.mode = .running ∧ t.kp = s.k ∧ t.out = ⟨false, false⟩ ∧ Frame [.v, .pc, .mode, .kp, .out] s t) ∧
    ((∀ n : Fin 16, ¬ (s.k.getLsbD n.val = true ∧ s.kp.getLsbD n.val = false)) →
      ∃ t, step s = .next t ∧ t.mode = .awaitingKey x ∧ t.kp = s.k ∧ t.out = ⟨false, true⟩ ∧ Frame [.kp, .out] s t)

/-- RND puts the sampled value of `rnd`, masked with NN, into VX, and samples it exactly once (R158; the spec's decision
D10). The value sampled is a constant nothing can evaluate, so the statement holds for every draw (log 5). -/
def Obligations.RndMasksOneFreeDraw : Prop :=
  ∀ (x : Reg) (nn : Byte) (s : State), ∃ t, exec (.rnd x nn) s = .next t ∧
    t.readV x = Config.rndInput s.draws &&& nn ∧ t.readV x &&& ~~~nn = 0 ∧ t.draws = s.draws + 1 ∧
    RegsBut (· = x) s t ∧ t.pc = s.pc + 2 ∧ t.out = ⟨false, false⟩ ∧ Frame [.v, .draws, .pc, .out] s t

/-! ### Display (44_display.md) -/

/-- CLS unsets every pixel, returns `Ok(display_changed = true, waiting_key = false)` and writes no register (R170; `out` is
the field that holds what the step returned, log 12). -/
def Obligations.ClsUnsetsEveryPixel : Prop :=
  ∀ s : State, ∃ t, exec .cls s = .next t ∧ (∀ x y, t.fb.pixel x y = false) ∧
    t.pc = s.pc + 2 ∧ t.out = ⟨true, false⟩ ∧ Frame [.fb, .pc, .out] s t

/-- DRW flips exactly the pixels that a 1 bit of the sprite falls on, each coordinate wrapped, and VF is 1 exactly when one
of them was set; N = 0 draws nothing and cannot fault; a row above 0xFFF raises `OutOfBounds` with nothing drawn (R171,
R172, Tier B: the spec's decisions D1, D4, D15, D26, log 15, 21). -/
def Obligations.DrwFlipsTheSpritePixels : Prop :=
  ∀ (x y : Reg) (n : Fin 16) (s : State),
    (n.val = 0 ∨ s.i.toNat + n.val - 1 ≤ 0xFFF → ∃ t, exec (.drw x y n) s = .next t ∧
      (∀ px py, px < 64 → py < 32 → (t.fb.pixel px py ≠ s.fb.pixel px py ↔
        ∃ r c, r < n.val ∧ c < 8 ∧ (s.byteAt (s.i.toNat + r)).getLsbD (7 - c) = true ∧
          ((s.readV x).toNat + c) % 64 = px ∧ ((s.readV y).toNat + r) % 32 = py)) ∧
      (t.readV vf = 0 ∨ t.readV vf = 1) ∧
      (t.readV vf = 1 ↔ ∃ r c, r < n.val ∧ c < 8 ∧ (s.byteAt (s.i.toNat + r)).getLsbD (7 - c) = true ∧
        s.fb.pixel ((s.readV x).toNat + c) ((s.readV y).toNat + r) = true) ∧
      RegsBut (· = vf) s t ∧ t.pc = s.pc + 2 ∧ t.out = ⟨true, false⟩ ∧ Frame [.v, .fb, .pc, .out] s t) ∧
    (n.val > 0 → s.i.toNat + n.val - 1 > 0xFFF →
      exec (.drw x y n) s = .fault (.outOfBounds (max s.i.toNat 0x1000)))

/-- Drawing the same sprite twice at the same place restores the framebuffer, and the second draw collides exactly when a
1 bit of the sprite covered a pixel that was unset before the first (R172, with 90_conflicts.md C10). -/
def Obligations.DrawingTwiceRestoresTheScreen : Prop :=
  ∀ (x y : Reg) (n : Fin 16) (s t : State), exec (.drw x y n) s = .next t →
    t.readV x = s.readV x → t.readV y = s.readV y →
    ∃ u, exec (.drw x y n) t = .next u ∧ u.fb = s.fb ∧
      (u.readV vf = 1 ↔ ∃ r c, r < n.val ∧ c < 8 ∧ (s.byteAt (s.i.toNat + r)).getLsbD (7 - c) = true ∧
        s.fb.pixel ((s.readV x).toNat + c) ((s.readV y).toNat + r) = false)

/-- A step that completes reports the display changed exactly when it executed CLS or DRW, and a key awaited exactly when
it executed LD Vx, K or a wait step that saw no new key (R173, the spec's decision D16;
40_step_and_control_flow.md R90, R91). -/
def Obligations.ReturnedFlagsTellDrawingAndWaiting : Prop :=
  ∀ s t : State, step s = .next t →
    (t.out.displayChanged = true ↔
      s.mode = .running ∧ (s.fetchInstr = .ok .cls ∨ ∃ x y n, s.fetchInstr = .ok (.drw x y n))) ∧
    (t.out.waitingKey = true ↔
      (s.mode = .running ∧ ∃ x, s.fetchInstr = .ok (.ldVxK x)) ∨
      (∃ x, s.mode = .awaitingKey x ∧ ∀ n : Fin 16, ¬ (s.k.getLsbD n.val = true ∧ s.kp.getLsbD n.val = false)))

/-- The snapshot has 2048 pixels in row-major order, and the read port at p = y * 64 + x gives the pixel in column x of row y
(R174; 60_exceptions.md R196). -/
def Obligations.SnapshotIsRowMajor : Prop :=
  ∀ s : State, s.snapshot.length = 2048 ∧ ∀ x y, x < 64 → y < 32 →
    s.snapshot[y * 64 + x]? = some (s.fb.pixel x y) ∧ s.fbData (BitVec.ofNat 11 (y * 64 + x)) = s.fb.pixel x y

/-! ### The host's transitions (60_exceptions.md, 70_reset_and_hazards.md) -/

/-- `tick` takes one from each timer that is not 0, leaves one that is at 0, touches nothing else and returns nothing
(60_exceptions.md R193). -/
def Obligations.TickSaturatesBothTimers : Prop :=
  ∀ s : State, ∃ t, transition .tick s = .ok ⟨t, .nothing⟩ ∧
    t.dt.toNat = (if s.dt.toNat > 0 then s.dt.toNat - 1 else 0) ∧
    t.st.toNat = (if s.st.toNat > 0 then s.st.toNat - 1 else 0) ∧ Frame [.dt, .st] s t

/-- `reset_load` gives every address the image of 70_reset_and_hazards.md R212: the ROM from 0x200, the font at its place,
zero elsewhere, whatever the state before and whatever the font's place and bytes. -/
def Obligations.ResetLoadMakesTheMemoryImage : Prop :=
  ∀ (s : State) (rom : List Byte), rom.length ≤ 3584 → ∃ t, s.resetLoad rom = .next t ∧
    ∀ a, a ≤ 0xFFF → t.byteAt a =
      if 0x200 ≤ a ∧ a < 0x200 + rom.length then rom.getD (a - 0x200) 0
      else if s.params.fontBase.val ≤ a ∧ a < s.params.fontBase.val + 80 then
        s.params.fontData.toList.getD (a - s.params.fontBase.val) 0
      else 0

/-- `reset_load` gives every register its reset value, from any state; an image of more than 3584 bytes is refused
(10_state.md R39; 70_reset_and_hazards.md R210, R214). The values of FB, K, KP and `mode` are the spec's decisions D17 and
D18, the refusal is D23 (log 7, 8, 23); `out` is the model's own (log 12). -/
def Obligations.ResetLoadGivesTheResetValues : Prop :=
  ∀ (s : State) (rom : List Byte),
    (rom.length ≤ 3584 → ∃ t, s.resetLoad rom = .next t ∧ (∀ r, t.readV r = 0) ∧ t.i = 0 ∧ t.pc = 0x200 ∧ t.dt = 0 ∧
      t.st = 0 ∧ t.sp = 0 ∧ (∀ j : Fin 16, t.stack[j] = 0) ∧ (∀ x y, t.fb.pixel x y = false) ∧ t.k = 0 ∧
      t.mode = .running ∧ t.kp = 0 ∧ t.out = ⟨false, false⟩ ∧ t.params = s.params ∧
      Memory.wf t.params t.mem = true) ∧
    (rom.length > 3584 → s.resetLoad rom = .refused (.oversizedRom rom.length))

/-- The wait is entered only by a step that executes LD Vx, K, and left only by a step that sees a newly pressed key or by
`reset_load` (60_exceptions.md R201; 10_state.md R34). -/
def Obligations.WaitIsEnteredAndLeftOnlyAsTheRulesSay : Prop :=
  ∀ (s : State) (tr : Transition) (d : Driven), transition tr s = .ok d →
    (∀ x, s.mode = .running → d.state.mode = .awaitingKey x → tr = .step ∧ s.fetchInstr = .ok (.ldVxK x)) ∧
    (∀ x, s.mode = .awaitingKey x → d.state.mode ≠ .awaitingKey x → d.state.mode = .running ∧
      ((∃ rom, tr = .resetLoad rom) ∨
        (tr = .step ∧ ∃ n : Fin 16, s.k.getLsbD n.val = true ∧ s.kp.getLsbD n.val = false)))

/-- Stepped with no other transition between the steps, a pc that runs into zeroed memory slides forward two bytes a step, and
where it comes to 0xFFF or 0x1000 the next fetch raises `OutOfBounds` (70_reset_and_hazards.md R220). That the run is one of
`step` alone, with no `tick` and no `set_keys`, is the model's choice (`stepN`, log 22); the address 0x1000 that the error
reports is the spec's diagnostic value (D5, log 13), which R220 does not give. -/
def Obligations.ZeroedMemorySlidesToTheEnd : Prop :=
  ∀ (n : Nat) (s : State), s.mode = .running → s.pc.toNat + 2 * n ≤ 0x1000 →
    (∀ j, j < 2 * n → s.byteAt (s.pc.toNat + j) = 0) →
    (∃ t, stepN n s = .next t ∧ t.pc.toNat = s.pc.toNat + 2 * n ∧ Frame [.pc, .out] s t) ∧
    (0xFFF ≤ s.pc.toNat + 2 * n → stepN (n + 1) s = .fault (.outOfBounds 0x1000))

/-- A JP to its own address, stepped any number of times with no other transition between the steps, leaves every element of
the state as it is, `out` aside (70_reset_and_hazards.md R219, which excepts DT and ST under `tick`). That the run is one of
`step` alone, with no `tick` and no `set_keys`, is the model's choice (`stepN`, log 22). -/
def Obligations.SelfJumpNeverChangesTheState : Prop :=
  ∀ (n : Nat) (s : State), s.mode = .running → s.pc.toNat ≤ 0xFFE → (s.wordAt s.pc.toNat).toNat = 0x1000 + s.pc.toNat →
    ∃ t, stepN n s = .next t ∧ Frame [.out] s t

/-! ### What can be observed -/

/-- The content of a dead stack entry is unobservable: two states that differ only there step alike
(10_state.md R28, the spec's decision D19; R40). -/
def Obligations.DeadStackEntriesAreUnobservable : Prop :=
  ∀ s t : State, LiveEq s t → LiveEqResult (step s) (step t)

/-- Only SKP, SKNP and LD Vx, K read the keypad; only LD Vx, DT reads the delay timer; no instruction reads the sound timer;
only RND samples `rnd` (10_state.md R26, R27, R33; 43_timer_key_random.md R158, R159). -/
def Obligations.InputsAreReadOnlyByTheirInstructions : Prop :=
  ∀ (i : Instr) (s : State),
    (∀ keys, (∀ x, i ≠ .skp x ∧ i ≠ .sknp x ∧ i ≠ .ldVxK x) →
      exec i (s.setKeys keys) = mapState (fun t => t.setKeys keys) (exec i s)) ∧
    (∀ b, (∀ x, i ≠ .ldVxDt x ∧ i ≠ .ldDtVx x) →
      exec i { s with dt := b } = mapState (fun t => { t with dt := b }) (exec i s)) ∧
    (∀ x b, exec (.ldDtVx x) { s with dt := b } = exec (.ldDtVx x) s) ∧
    (∀ b, (∀ x, i ≠ .ldStVx x) →
      exec i { s with st := b } = mapState (fun t => { t with st := b }) (exec i s)) ∧
    (∀ x b, exec (.ldStVx x) { s with st := b } = exec (.ldStVx x) s) ∧
    (∀ n, (∀ x nn, i ≠ .rnd x nn) →
      exec i { s with draws := n } = mapState (fun t => { t with draws := n }) (exec i s))
end

