-- ==== Sys2Proof/Laws/Decode.lean ====
section
/-! SUPPORT. Words, fields and masks as numbers: what the encoder's formats and the decoder's fields are in arithmetic
(30_encoding.md R71), so that facts about them are linear. -/

namespace Sys2Proof

theorem toNat_append {n m : Nat} (a : BitVec n) (b : BitVec m) : (a ++ b).toNat = a.toNat * 2 ^ m + b.toNat := by
  rw [BitVec.toNat_append, ← Nat.shiftLeft_add_eq_or_of_lt b.isLt, Nat.shiftLeft_eq]

theorem encodeA_toNat (op : BitVec 4) (nnn : Addr) : (encodeA op nnn).toNat = op.toNat * 4096 + nnn.toNat :=
  toNat_append op nnn

theorem encodeRI_toNat (op : BitVec 4) (x : Reg) (nn : Byte) :
    (encodeRI op x nn).toNat = op.toNat * 4096 + x.val * 256 + nn.toNat := by
  have h : (encodeRI op x nn).toNat = (op ++ regBits x).toNat * 256 + nn.toNat := toNat_append _ nn
  have h2 : (op ++ regBits x).toNat = op.toNat * 16 + x.val := toNat_append op (regBits x)
  rw [h, h2]; ring

theorem encodeRR_toNat (op : BitVec 4) (x y : Reg) (n : BitVec 4) :
    (encodeRR op x y n).toNat = op.toNat * 4096 + x.val * 256 + y.val * 16 + n.toNat := by
  have h : (encodeRR op x y n).toNat = (op ++ regBits x ++ regBits y).toNat * 16 + n.toNat := toNat_append _ n
  have h2 : (op ++ regBits x ++ regBits y).toNat = (op ++ regBits x).toNat * 16 + y.val := toNat_append _ (regBits y)
  have h3 : (op ++ regBits x).toNat = op.toNat * 16 + x.val := toNat_append op (regBits x)
  rw [h, h2, h3]; ring

theorem fieldOp_toNat (w : Word) : (fieldOp w).toNat = w.toNat / 4096 := by
  simp only [fieldOp, BitVec.extractLsb'_toNat, Nat.shiftRight_eq_div_pow]; omega

theorem fieldX_val (w : Word) : (fieldX w).val = w.toNat / 256 % 16 := by
  have : (fieldX w).val = (w.extractLsb' 8 4).toNat := rfl
  rw [this]; simp only [BitVec.extractLsb'_toNat, Nat.shiftRight_eq_div_pow]

theorem fieldY_val (w : Word) : (fieldY w).val = w.toNat / 16 % 16 := by
  have : (fieldY w).val = (w.extractLsb' 4 4).toNat := rfl
  rw [this]; simp only [BitVec.extractLsb'_toNat, Nat.shiftRight_eq_div_pow]

theorem fieldN_val (w : Word) : (fieldN w).val = w.toNat % 16 := by
  have : (fieldN w).val = (w.extractLsb' 0 4).toNat := rfl
  rw [this]; simp only [BitVec.extractLsb'_toNat, Nat.shiftRight_eq_div_pow]; omega

theorem fieldNN_toNat (w : Word) : (fieldNN w).toNat = w.toNat % 256 := by
  simp only [fieldNN, BitVec.extractLsb'_toNat, Nat.shiftRight_eq_div_pow]; omega

theorem fieldNNN_toNat (w : Word) : (fieldNNN w).toNat = w.toNat % 4096 := by
  simp only [fieldNNN, BitVec.extractLsb'_toNat, Nat.shiftRight_eq_div_pow]; omega

/-- The bits a row with mask 0xF000 looks at are OP. -/
theorem and_F000 (w : Word) : (w &&& 0xF000).toNat = w.toNat / 4096 * 4096 := by
  have h : w &&& 0xF000 = encodeA (fieldOp w) 0 := by
    ext k hk
    rw [encodeA, BitVec.getElem_append]
    interval_cases k <;> simp [fieldOp]
  rw [h, encodeA_toNat, fieldOp_toNat]; simp

/-- A mask of OP and of the lowest `n` bits. -/
theorem and_op_low (w : Word) {n : Nat} (hn : n ≤ 12) (mask low : Word) (hm : mask = 0xF000 ||| low)
    (hl : low.toNat = 2 ^ n - 1) : (w &&& mask).toNat = w.toNat / 4096 * 4096 + w.toNat % 2 ^ n := by
  have hand : w &&& mask = (w &&& 0xF000) ||| (w &&& low) := by rw [hm]; ext k hk; simp [Bool.and_or_distrib_left]
  have hlt : w.toNat % 2 ^ n < 2 ^ n := Nat.mod_lt _ (Nat.two_pow_pos n)
  have hpow : 4096 = 2 ^ (12 - n) * 2 ^ n := by rw [← Nat.pow_add, show 12 - n + n = 12 by omega]
  rw [hand, BitVec.toNat_or, and_F000, BitVec.toNat_and, hl, Nat.and_two_pow_sub_one_eq_mod]
  have h : w.toNat / 4096 * 4096 = (w.toNat / 4096 * 2 ^ (12 - n)) <<< n := by
    rw [Nat.shiftLeft_eq, Nat.mul_assoc, ← hpow]
  rw [h, Nat.shiftLeft_add_eq_or_of_lt hlt]

/-- The bits a row with mask 0xF00F looks at are OP and N. -/
theorem and_F00F (w : Word) : (w &&& 0xF00F).toNat = w.toNat / 4096 * 4096 + w.toNat % 16 :=
  and_op_low w (n := 4) (by decide) 0xF00F 0xF (by decide) (by decide)

/-- The bits a row with mask 0xF0FF looks at are OP and NN. -/
theorem and_F0FF (w : Word) : (w &&& 0xF0FF).toNat = w.toNat / 4096 * 4096 + w.toNat % 256 :=
  and_op_low w (n := 8) (by decide) 0xF0FF 0xFF (by decide) (by decide)

theorem and_FFFF (w : Word) : (w &&& 0xFFFF) = w := by
  have h : (0xFFFF : Word) = BitVec.allOnes 16 := by decide
  rw [h, BitVec.and_allOnes]

end Sys2Proof
end

