-- ==== Sys2Proof/Laws/State.lean ====
section
/-! SUPPORT. What each operation on the state does to each field: one lemma per field per operation, so that no later proof
unfolds a record update. -/

namespace Sys2Proof.Machine

/-! ### setByte -/

@[simp] theorem setByte_v (s : State) (a : Nat) (b : Byte) : (s.setByte a b).v = s.v := rfl
@[simp] theorem setByte_i (s : State) (a : Nat) (b : Byte) : (s.setByte a b).i = s.i := rfl
@[simp] theorem setByte_pc (s : State) (a : Nat) (b : Byte) : (s.setByte a b).pc = s.pc := rfl
@[simp] theorem setByte_dt (s : State) (a : Nat) (b : Byte) : (s.setByte a b).dt = s.dt := rfl
@[simp] theorem setByte_st (s : State) (a : Nat) (b : Byte) : (s.setByte a b).st = s.st := rfl
@[simp] theorem setByte_stack (s : State) (a : Nat) (b : Byte) : (s.setByte a b).stack = s.stack := rfl
@[simp] theorem setByte_sp (s : State) (a : Nat) (b : Byte) : (s.setByte a b).sp = s.sp := rfl
@[simp] theorem setByte_mem (s : State) (a : Nat) (b : Byte) : (s.setByte a b).mem = Memory.write s.params s.mem a b :=
    rfl
@[simp] theorem setByte_fb (s : State) (a : Nat) (b : Byte) : (s.setByte a b).fb = s.fb := rfl
@[simp] theorem setByte_k (s : State) (a : Nat) (b : Byte) : (s.setByte a b).k = s.k := rfl
@[simp] theorem setByte_mode (s : State) (a : Nat) (b : Byte) : (s.setByte a b).mode = s.mode := rfl
@[simp] theorem setByte_kp (s : State) (a : Nat) (b : Byte) : (s.setByte a b).kp = s.kp := rfl
@[simp] theorem setByte_params (s : State) (a : Nat) (b : Byte) : (s.setByte a b).params = s.params := rfl
@[simp] theorem setByte_draws (s : State) (a : Nat) (b : Byte) : (s.setByte a b).draws = s.draws := rfl
@[simp] theorem setByte_out (s : State) (a : Nat) (b : Byte) : (s.setByte a b).out = s.out := rfl

/-! ### writeV -/

@[simp] theorem writeV_i (s : State) (x : Reg) (b : Byte) : (s.writeV x b).i = s.i := rfl
@[simp] theorem writeV_pc (s : State) (x : Reg) (b : Byte) : (s.writeV x b).pc = s.pc := rfl
@[simp] theorem writeV_dt (s : State) (x : Reg) (b : Byte) : (s.writeV x b).dt = s.dt := rfl
@[simp] theorem writeV_st (s : State) (x : Reg) (b : Byte) : (s.writeV x b).st = s.st := rfl
@[simp] theorem writeV_stack (s : State) (x : Reg) (b : Byte) : (s.writeV x b).stack = s.stack := rfl
@[simp] theorem writeV_sp (s : State) (x : Reg) (b : Byte) : (s.writeV x b).sp = s.sp := rfl
@[simp] theorem writeV_mem (s : State) (x : Reg) (b : Byte) : (s.writeV x b).mem = s.mem := rfl
@[simp] theorem writeV_fb (s : State) (x : Reg) (b : Byte) : (s.writeV x b).fb = s.fb := rfl
@[simp] theorem writeV_k (s : State) (x : Reg) (b : Byte) : (s.writeV x b).k = s.k := rfl
@[simp] theorem writeV_mode (s : State) (x : Reg) (b : Byte) : (s.writeV x b).mode = s.mode := rfl
@[simp] theorem writeV_kp (s : State) (x : Reg) (b : Byte) : (s.writeV x b).kp = s.kp := rfl
@[simp] theorem writeV_params (s : State) (x : Reg) (b : Byte) : (s.writeV x b).params = s.params := rfl
@[simp] theorem writeV_draws (s : State) (x : Reg) (b : Byte) : (s.writeV x b).draws = s.draws := rfl
@[simp] theorem writeV_out (s : State) (x : Reg) (b : Byte) : (s.writeV x b).out = s.out := rfl

/-! ### writeVs -/

@[simp] theorem writeVs_i (s : State) (bytes : List Byte) : (s.writeVs bytes).i = s.i := rfl
@[simp] theorem writeVs_pc (s : State) (bytes : List Byte) : (s.writeVs bytes).pc = s.pc := rfl
@[simp] theorem writeVs_dt (s : State) (bytes : List Byte) : (s.writeVs bytes).dt = s.dt := rfl
@[simp] theorem writeVs_st (s : State) (bytes : List Byte) : (s.writeVs bytes).st = s.st := rfl
@[simp] theorem writeVs_stack (s : State) (bytes : List Byte) : (s.writeVs bytes).stack = s.stack := rfl
@[simp] theorem writeVs_sp (s : State) (bytes : List Byte) : (s.writeVs bytes).sp = s.sp := rfl
@[simp] theorem writeVs_mem (s : State) (bytes : List Byte) : (s.writeVs bytes).mem = s.mem := rfl
@[simp] theorem writeVs_fb (s : State) (bytes : List Byte) : (s.writeVs bytes).fb = s.fb := rfl
@[simp] theorem writeVs_k (s : State) (bytes : List Byte) : (s.writeVs bytes).k = s.k := rfl
@[simp] theorem writeVs_mode (s : State) (bytes : List Byte) : (s.writeVs bytes).mode = s.mode := rfl
@[simp] theorem writeVs_kp (s : State) (bytes : List Byte) : (s.writeVs bytes).kp = s.kp := rfl
@[simp] theorem writeVs_params (s : State) (bytes : List Byte) : (s.writeVs bytes).params = s.params := rfl
@[simp] theorem writeVs_draws (s : State) (bytes : List Byte) : (s.writeVs bytes).draws = s.draws := rfl
@[simp] theorem writeVs_out (s : State) (bytes : List Byte) : (s.writeVs bytes).out = s.out := rfl

/-! ### jumpTo -/

@[simp] theorem jumpTo_v (s : State) (w : Word) : (s.jumpTo w).v = s.v := rfl
@[simp] theorem jumpTo_i (s : State) (w : Word) : (s.jumpTo w).i = s.i := rfl
@[simp] theorem jumpTo_pc (s : State) (w : Word) : (s.jumpTo w).pc = w := rfl
@[simp] theorem jumpTo_dt (s : State) (w : Word) : (s.jumpTo w).dt = s.dt := rfl
@[simp] theorem jumpTo_st (s : State) (w : Word) : (s.jumpTo w).st = s.st := rfl
@[simp] theorem jumpTo_stack (s : State) (w : Word) : (s.jumpTo w).stack = s.stack := rfl
@[simp] theorem jumpTo_sp (s : State) (w : Word) : (s.jumpTo w).sp = s.sp := rfl
@[simp] theorem jumpTo_mem (s : State) (w : Word) : (s.jumpTo w).mem = s.mem := rfl
@[simp] theorem jumpTo_fb (s : State) (w : Word) : (s.jumpTo w).fb = s.fb := rfl
@[simp] theorem jumpTo_k (s : State) (w : Word) : (s.jumpTo w).k = s.k := rfl
@[simp] theorem jumpTo_mode (s : State) (w : Word) : (s.jumpTo w).mode = s.mode := rfl
@[simp] theorem jumpTo_kp (s : State) (w : Word) : (s.jumpTo w).kp = s.kp := rfl
@[simp] theorem jumpTo_params (s : State) (w : Word) : (s.jumpTo w).params = s.params := rfl
@[simp] theorem jumpTo_draws (s : State) (w : Word) : (s.jumpTo w).draws = s.draws := rfl
@[simp] theorem jumpTo_out (s : State) (w : Word) : (s.jumpTo w).out = plainFlags := rfl

/-! ### advance -/

@[simp] theorem advance_v (s : State) : (s.advance).v = s.v := rfl
@[simp] theorem advance_i (s : State) : (s.advance).i = s.i := rfl
@[simp] theorem advance_pc (s : State) : (s.advance).pc = s.pc + 2 := rfl
@[simp] theorem advance_dt (s : State) : (s.advance).dt = s.dt := rfl
@[simp] theorem advance_st (s : State) : (s.advance).st = s.st := rfl
@[simp] theorem advance_stack (s : State) : (s.advance).stack = s.stack := rfl
@[simp] theorem advance_sp (s : State) : (s.advance).sp = s.sp := rfl
@[simp] theorem advance_mem (s : State) : (s.advance).mem = s.mem := rfl
@[simp] theorem advance_fb (s : State) : (s.advance).fb = s.fb := rfl
@[simp] theorem advance_k (s : State) : (s.advance).k = s.k := rfl
@[simp] theorem advance_mode (s : State) : (s.advance).mode = s.mode := rfl
@[simp] theorem advance_kp (s : State) : (s.advance).kp = s.kp := rfl
@[simp] theorem advance_params (s : State) : (s.advance).params = s.params := rfl
@[simp] theorem advance_draws (s : State) : (s.advance).draws = s.draws := rfl
@[simp] theorem advance_out (s : State) : (s.advance).out = plainFlags := rfl

/-! ### advanceDrawn -/

@[simp] theorem advanceDrawn_v (s : State) : (s.advanceDrawn).v = s.v := rfl
@[simp] theorem advanceDrawn_i (s : State) : (s.advanceDrawn).i = s.i := rfl
@[simp] theorem advanceDrawn_pc (s : State) : (s.advanceDrawn).pc = s.pc + 2 := rfl
@[simp] theorem advanceDrawn_dt (s : State) : (s.advanceDrawn).dt = s.dt := rfl
@[simp] theorem advanceDrawn_st (s : State) : (s.advanceDrawn).st = s.st := rfl
@[simp] theorem advanceDrawn_stack (s : State) : (s.advanceDrawn).stack = s.stack := rfl
@[simp] theorem advanceDrawn_sp (s : State) : (s.advanceDrawn).sp = s.sp := rfl
@[simp] theorem advanceDrawn_mem (s : State) : (s.advanceDrawn).mem = s.mem := rfl
@[simp] theorem advanceDrawn_fb (s : State) : (s.advanceDrawn).fb = s.fb := rfl
@[simp] theorem advanceDrawn_k (s : State) : (s.advanceDrawn).k = s.k := rfl
@[simp] theorem advanceDrawn_mode (s : State) : (s.advanceDrawn).mode = s.mode := rfl
@[simp] theorem advanceDrawn_kp (s : State) : (s.advanceDrawn).kp = s.kp := rfl
@[simp] theorem advanceDrawn_params (s : State) : (s.advanceDrawn).params = s.params := rfl
@[simp] theorem advanceDrawn_draws (s : State) : (s.advanceDrawn).draws = s.draws := rfl
@[simp] theorem advanceDrawn_out (s : State) : (s.advanceDrawn).out = ⟨true, false⟩ := rfl

/-! ### skipIf -/

@[simp] theorem skipIf_v (s : State) (c : Bool) : (s.skipIf c).v = s.v := by cases c <;> rfl
@[simp] theorem skipIf_i (s : State) (c : Bool) : (s.skipIf c).i = s.i := by cases c <;> rfl
@[simp] theorem skipIf_pc (s : State) (c : Bool) : (s.skipIf c).pc = if c then s.pc + 4 else s.pc + 2 :=
    by cases c <;> rfl
@[simp] theorem skipIf_dt (s : State) (c : Bool) : (s.skipIf c).dt = s.dt := by cases c <;> rfl
@[simp] theorem skipIf_st (s : State) (c : Bool) : (s.skipIf c).st = s.st := by cases c <;> rfl
@[simp] theorem skipIf_stack (s : State) (c : Bool) : (s.skipIf c).stack = s.stack := by cases c <;> rfl
@[simp] theorem skipIf_sp (s : State) (c : Bool) : (s.skipIf c).sp = s.sp := by cases c <;> rfl
@[simp] theorem skipIf_mem (s : State) (c : Bool) : (s.skipIf c).mem = s.mem := by cases c <;> rfl
@[simp] theorem skipIf_fb (s : State) (c : Bool) : (s.skipIf c).fb = s.fb := by cases c <;> rfl
@[simp] theorem skipIf_k (s : State) (c : Bool) : (s.skipIf c).k = s.k := by cases c <;> rfl
@[simp] theorem skipIf_mode (s : State) (c : Bool) : (s.skipIf c).mode = s.mode := by cases c <;> rfl
@[simp] theorem skipIf_kp (s : State) (c : Bool) : (s.skipIf c).kp = s.kp := by cases c <;> rfl
@[simp] theorem skipIf_params (s : State) (c : Bool) : (s.skipIf c).params = s.params := by cases c <;> rfl
@[simp] theorem skipIf_draws (s : State) (c : Bool) : (s.skipIf c).draws = s.draws := by cases c <;> rfl
@[simp] theorem skipIf_out (s : State) (c : Bool) : (s.skipIf c).out = plainFlags := by cases c <;> rfl

/-! ### writeFlag -/

@[simp] theorem writeFlag_i (s : State) (f : Bool) : (s.writeFlag f).i = s.i := rfl
@[simp] theorem writeFlag_pc (s : State) (f : Bool) : (s.writeFlag f).pc = s.pc := rfl
@[simp] theorem writeFlag_dt (s : State) (f : Bool) : (s.writeFlag f).dt = s.dt := rfl
@[simp] theorem writeFlag_st (s : State) (f : Bool) : (s.writeFlag f).st = s.st := rfl
@[simp] theorem writeFlag_stack (s : State) (f : Bool) : (s.writeFlag f).stack = s.stack := rfl
@[simp] theorem writeFlag_sp (s : State) (f : Bool) : (s.writeFlag f).sp = s.sp := rfl
@[simp] theorem writeFlag_mem (s : State) (f : Bool) : (s.writeFlag f).mem = s.mem := rfl
@[simp] theorem writeFlag_fb (s : State) (f : Bool) : (s.writeFlag f).fb = s.fb := rfl
@[simp] theorem writeFlag_k (s : State) (f : Bool) : (s.writeFlag f).k = s.k := rfl
@[simp] theorem writeFlag_mode (s : State) (f : Bool) : (s.writeFlag f).mode = s.mode := rfl
@[simp] theorem writeFlag_kp (s : State) (f : Bool) : (s.writeFlag f).kp = s.kp := rfl
@[simp] theorem writeFlag_params (s : State) (f : Bool) : (s.writeFlag f).params = s.params := rfl
@[simp] theorem writeFlag_draws (s : State) (f : Bool) : (s.writeFlag f).draws = s.draws := rfl
@[simp] theorem writeFlag_out (s : State) (f : Bool) : (s.writeFlag f).out = s.out := rfl

/-! ### writeFlagged -/

@[simp] theorem writeFlagged_i (s : State) (x : Reg) (r : Byte × Bool) : (s.writeFlagged x r).i = s.i := rfl
@[simp] theorem writeFlagged_pc (s : State) (x : Reg) (r : Byte × Bool) : (s.writeFlagged x r).pc = s.pc := rfl
@[simp] theorem writeFlagged_dt (s : State) (x : Reg) (r : Byte × Bool) : (s.writeFlagged x r).dt = s.dt := rfl
@[simp] theorem writeFlagged_st (s : State) (x : Reg) (r : Byte × Bool) : (s.writeFlagged x r).st = s.st := rfl
@[simp] theorem writeFlagged_stack (s : State) (x : Reg) (r : Byte × Bool) : (s.writeFlagged x r).stack = s.stack := rfl
@[simp] theorem writeFlagged_sp (s : State) (x : Reg) (r : Byte × Bool) : (s.writeFlagged x r).sp = s.sp := rfl
@[simp] theorem writeFlagged_mem (s : State) (x : Reg) (r : Byte × Bool) : (s.writeFlagged x r).mem = s.mem := rfl
@[simp] theorem writeFlagged_fb (s : State) (x : Reg) (r : Byte × Bool) : (s.writeFlagged x r).fb = s.fb := rfl
@[simp] theorem writeFlagged_k (s : State) (x : Reg) (r : Byte × Bool) : (s.writeFlagged x r).k = s.k := rfl
@[simp] theorem writeFlagged_mode (s : State) (x : Reg) (r : Byte × Bool) : (s.writeFlagged x r).mode = s.mode := rfl
@[simp] theorem writeFlagged_kp (s : State) (x : Reg) (r : Byte × Bool) : (s.writeFlagged x r).kp = s.kp := rfl
@[simp] theorem writeFlagged_params (s : State) (x : Reg) (r : Byte × Bool) : (s.writeFlagged x r).params = s.params :=
    rfl
@[simp] theorem writeFlagged_draws (s : State) (x : Reg) (r : Byte × Bool) : (s.writeFlagged x r).draws = s.draws := rfl
@[simp] theorem writeFlagged_out (s : State) (x : Reg) (r : Byte × Bool) : (s.writeFlagged x r).out = s.out := rfl

/-! ### addToIndex -/

@[simp] theorem addToIndex_i (s : State) (r : Word × Bool) : (s.addToIndex r).i = r.1 :=
    by unfold State.addToIndex; split <;> rfl
@[simp] theorem addToIndex_pc (s : State) (r : Word × Bool) : (s.addToIndex r).pc = s.pc :=
    by unfold State.addToIndex; split <;> rfl
@[simp] theorem addToIndex_dt (s : State) (r : Word × Bool) : (s.addToIndex r).dt = s.dt :=
    by unfold State.addToIndex; split <;> rfl
@[simp] theorem addToIndex_st (s : State) (r : Word × Bool) : (s.addToIndex r).st = s.st :=
    by unfold State.addToIndex; split <;> rfl
@[simp] theorem addToIndex_stack (s : State) (r : Word × Bool) : (s.addToIndex r).stack = s.stack :=
    by unfold State.addToIndex; split <;> rfl
@[simp] theorem addToIndex_sp (s : State) (r : Word × Bool) : (s.addToIndex r).sp = s.sp :=
    by unfold State.addToIndex; split <;> rfl
@[simp] theorem addToIndex_mem (s : State) (r : Word × Bool) : (s.addToIndex r).mem = s.mem :=
    by unfold State.addToIndex; split <;> rfl
@[simp] theorem addToIndex_fb (s : State) (r : Word × Bool) : (s.addToIndex r).fb = s.fb :=
    by unfold State.addToIndex; split <;> rfl
@[simp] theorem addToIndex_k (s : State) (r : Word × Bool) : (s.addToIndex r).k = s.k :=
    by unfold State.addToIndex; split <;> rfl
@[simp] theorem addToIndex_mode (s : State) (r : Word × Bool) : (s.addToIndex r).mode = s.mode :=
    by unfold State.addToIndex; split <;> rfl
@[simp] theorem addToIndex_kp (s : State) (r : Word × Bool) : (s.addToIndex r).kp = s.kp :=
    by unfold State.addToIndex; split <;> rfl
@[simp] theorem addToIndex_params (s : State) (r : Word × Bool) : (s.addToIndex r).params = s.params :=
    by unfold State.addToIndex; split <;> rfl
@[simp] theorem addToIndex_draws (s : State) (r : Word × Bool) : (s.addToIndex r).draws = s.draws :=
    by unfold State.addToIndex; split <;> rfl
@[simp] theorem addToIndex_out (s : State) (r : Word × Bool) : (s.addToIndex r).out = s.out :=
    by unfold State.addToIndex; split <;> rfl

/-! ### bumpIndex -/

@[simp] theorem bumpIndex_v (s : State) (x : Reg) : (s.bumpIndex x).v = s.v := by unfold State.bumpIndex; split <;> rfl
@[simp] theorem bumpIndex_i (s : State) (x : Reg) : (s.bumpIndex x).i = if s.params.memIncrementI then s.i + BitVec.ofNat 16 (x.val + 1) else s.i :=
    by unfold State.bumpIndex; split <;> rfl
@[simp] theorem bumpIndex_pc (s : State) (x : Reg) : (s.bumpIndex x).pc = s.pc :=
    by unfold State.bumpIndex; split <;> rfl
@[simp] theorem bumpIndex_dt (s : State) (x : Reg) : (s.bumpIndex x).dt = s.dt :=
    by unfold State.bumpIndex; split <;> rfl
@[simp] theorem bumpIndex_st (s : State) (x : Reg) : (s.bumpIndex x).st = s.st :=
    by unfold State.bumpIndex; split <;> rfl
@[simp] theorem bumpIndex_stack (s : State) (x : Reg) : (s.bumpIndex x).stack = s.stack :=
    by unfold State.bumpIndex; split <;> rfl
@[simp] theorem bumpIndex_sp (s : State) (x : Reg) : (s.bumpIndex x).sp = s.sp :=
    by unfold State.bumpIndex; split <;> rfl
@[simp] theorem bumpIndex_mem (s : State) (x : Reg) : (s.bumpIndex x).mem = s.mem :=
    by unfold State.bumpIndex; split <;> rfl
@[simp] theorem bumpIndex_fb (s : State) (x : Reg) : (s.bumpIndex x).fb = s.fb :=
    by unfold State.bumpIndex; split <;> rfl
@[simp] theorem bumpIndex_k (s : State) (x : Reg) : (s.bumpIndex x).k = s.k := by unfold State.bumpIndex; split <;> rfl
@[simp] theorem bumpIndex_mode (s : State) (x : Reg) : (s.bumpIndex x).mode = s.mode :=
    by unfold State.bumpIndex; split <;> rfl
@[simp] theorem bumpIndex_kp (s : State) (x : Reg) : (s.bumpIndex x).kp = s.kp :=
    by unfold State.bumpIndex; split <;> rfl
@[simp] theorem bumpIndex_params (s : State) (x : Reg) : (s.bumpIndex x).params = s.params :=
    by unfold State.bumpIndex; split <;> rfl
@[simp] theorem bumpIndex_draws (s : State) (x : Reg) : (s.bumpIndex x).draws = s.draws :=
    by unfold State.bumpIndex; split <;> rfl
@[simp] theorem bumpIndex_out (s : State) (x : Reg) : (s.bumpIndex x).out = s.out :=
    by unfold State.bumpIndex; split <;> rfl

/-! ### drawn -/

@[simp] theorem drawn_v (s : State) : (s.drawn).v = s.v := rfl
@[simp] theorem drawn_i (s : State) : (s.drawn).i = s.i := rfl
@[simp] theorem drawn_pc (s : State) : (s.drawn).pc = s.pc := rfl
@[simp] theorem drawn_dt (s : State) : (s.drawn).dt = s.dt := rfl
@[simp] theorem drawn_st (s : State) : (s.drawn).st = s.st := rfl
@[simp] theorem drawn_stack (s : State) : (s.drawn).stack = s.stack := rfl
@[simp] theorem drawn_sp (s : State) : (s.drawn).sp = s.sp := rfl
@[simp] theorem drawn_mem (s : State) : (s.drawn).mem = s.mem := rfl
@[simp] theorem drawn_fb (s : State) : (s.drawn).fb = s.fb := rfl
@[simp] theorem drawn_k (s : State) : (s.drawn).k = s.k := rfl
@[simp] theorem drawn_mode (s : State) : (s.drawn).mode = s.mode := rfl
@[simp] theorem drawn_kp (s : State) : (s.drawn).kp = s.kp := rfl
@[simp] theorem drawn_params (s : State) : (s.drawn).params = s.params := rfl
@[simp] theorem drawn_draws (s : State) : (s.drawn).draws = s.draws + 1 := rfl
@[simp] theorem drawn_out (s : State) : (s.drawn).out = s.out := rfl

/-! ### putCanvas -/

@[simp] theorem putCanvas_i (s : State) (c : Canvas) : (s.putCanvas c).i = s.i := rfl
@[simp] theorem putCanvas_pc (s : State) (c : Canvas) : (s.putCanvas c).pc = s.pc := rfl
@[simp] theorem putCanvas_dt (s : State) (c : Canvas) : (s.putCanvas c).dt = s.dt := rfl
@[simp] theorem putCanvas_st (s : State) (c : Canvas) : (s.putCanvas c).st = s.st := rfl
@[simp] theorem putCanvas_stack (s : State) (c : Canvas) : (s.putCanvas c).stack = s.stack := rfl
@[simp] theorem putCanvas_sp (s : State) (c : Canvas) : (s.putCanvas c).sp = s.sp := rfl
@[simp] theorem putCanvas_mem (s : State) (c : Canvas) : (s.putCanvas c).mem = s.mem := rfl
@[simp] theorem putCanvas_fb (s : State) (c : Canvas) : (s.putCanvas c).fb = c.1 := rfl
@[simp] theorem putCanvas_k (s : State) (c : Canvas) : (s.putCanvas c).k = s.k := rfl
@[simp] theorem putCanvas_mode (s : State) (c : Canvas) : (s.putCanvas c).mode = s.mode := rfl
@[simp] theorem putCanvas_kp (s : State) (c : Canvas) : (s.putCanvas c).kp = s.kp := rfl
@[simp] theorem putCanvas_params (s : State) (c : Canvas) : (s.putCanvas c).params = s.params := rfl
@[simp] theorem putCanvas_draws (s : State) (c : Canvas) : (s.putCanvas c).draws = s.draws := rfl
@[simp] theorem putCanvas_out (s : State) (c : Canvas) : (s.putCanvas c).out = s.out := rfl

/-! ### tick -/

@[simp] theorem tick_v (s : State) : (s.tick).v = s.v := rfl
@[simp] theorem tick_i (s : State) : (s.tick).i = s.i := rfl
@[simp] theorem tick_pc (s : State) : (s.tick).pc = s.pc := rfl
@[simp] theorem tick_dt (s : State) : (s.tick).dt = countDown s.dt := rfl
@[simp] theorem tick_st (s : State) : (s.tick).st = countDown s.st := rfl
@[simp] theorem tick_stack (s : State) : (s.tick).stack = s.stack := rfl
@[simp] theorem tick_sp (s : State) : (s.tick).sp = s.sp := rfl
@[simp] theorem tick_mem (s : State) : (s.tick).mem = s.mem := rfl
@[simp] theorem tick_fb (s : State) : (s.tick).fb = s.fb := rfl
@[simp] theorem tick_k (s : State) : (s.tick).k = s.k := rfl
@[simp] theorem tick_mode (s : State) : (s.tick).mode = s.mode := rfl
@[simp] theorem tick_kp (s : State) : (s.tick).kp = s.kp := rfl
@[simp] theorem tick_params (s : State) : (s.tick).params = s.params := rfl
@[simp] theorem tick_draws (s : State) : (s.tick).draws = s.draws := rfl
@[simp] theorem tick_out (s : State) : (s.tick).out = s.out := rfl

/-! ### setKeys -/

@[simp] theorem setKeys_v (s : State) (keys : Word) : (s.setKeys keys).v = s.v := rfl
@[simp] theorem setKeys_i (s : State) (keys : Word) : (s.setKeys keys).i = s.i := rfl
@[simp] theorem setKeys_pc (s : State) (keys : Word) : (s.setKeys keys).pc = s.pc := rfl
@[simp] theorem setKeys_dt (s : State) (keys : Word) : (s.setKeys keys).dt = s.dt := rfl
@[simp] theorem setKeys_st (s : State) (keys : Word) : (s.setKeys keys).st = s.st := rfl
@[simp] theorem setKeys_stack (s : State) (keys : Word) : (s.setKeys keys).stack = s.stack := rfl
@[simp] theorem setKeys_sp (s : State) (keys : Word) : (s.setKeys keys).sp = s.sp := rfl
@[simp] theorem setKeys_mem (s : State) (keys : Word) : (s.setKeys keys).mem = s.mem := rfl
@[simp] theorem setKeys_fb (s : State) (keys : Word) : (s.setKeys keys).fb = s.fb := rfl
@[simp] theorem setKeys_k (s : State) (keys : Word) : (s.setKeys keys).k = keys := rfl
@[simp] theorem setKeys_mode (s : State) (keys : Word) : (s.setKeys keys).mode = s.mode := rfl
@[simp] theorem setKeys_kp (s : State) (keys : Word) : (s.setKeys keys).kp = s.kp := rfl
@[simp] theorem setKeys_params (s : State) (keys : Word) : (s.setKeys keys).params = s.params := rfl
@[simp] theorem setKeys_draws (s : State) (keys : Word) : (s.setKeys keys).draws = s.draws := rfl
@[simp] theorem setKeys_out (s : State) (keys : Word) : (s.setKeys keys).out = s.out := rfl

end Sys2Proof.Machine
end

