-- ==== Sys2Proof/Laws/Memory.lean ====
section
/-! SUPPORT. The list of memory cells: a read after a write (20_memory.md R56), and that every memory operation keeps the
canonical form. -/

namespace Sys2Proof.Machine

theorem rises_mono {lo lo' : Nat} {m : Memory} (h : Memory.rises lo m = true) (hl : lo' ≤ lo) :
    Memory.rises lo' m = true := by
  cases m with
  | nil => rfl
  | cons c rest =>
    simp only [Memory.rises, Bool.and_eq_true, decide_eq_true_eq] at h ⊢
    exact ⟨by omega, h.2⟩

/-- Below its first address a rising list reads as unlisted. -/
theorem read_below (p : Params) {lo a : Nat} {m : Memory} (h : Memory.rises lo m = true) (ha : a < lo) :
    Memory.read p m a = Memory.background p a := by
  induction m generalizing lo with
  | nil => rfl
  | cons c rest ih =>
    simp only [Memory.rises, Bool.and_eq_true, decide_eq_true_eq] at h
    simp only [Memory.read]
    rw [if_neg (by omega), ih h.2 (by omega)]

theorem read_remove (p : Params) {lo : Nat} {m : Memory} (h : Memory.rises lo m = true) (a a' : Nat) :
    Memory.read p (Memory.remove m a) a' = if a' = a then Memory.background p a else Memory.read p m a' := by
  induction m generalizing lo with
  | nil =>
    simp only [Memory.remove, Memory.read]
    split <;> simp_all
  | cons c rest ih =>
    simp only [Memory.rises, Bool.and_eq_true, decide_eq_true_eq] at h
    by_cases hc : c.1 = a
    · simp only [Memory.remove, hc, if_true, Memory.read]
      by_cases ha : a' = a
      · subst ha
        rw [if_pos rfl, ← hc, read_below p h.2 (by omega)]
      · rw [if_neg ha, if_neg (by omega)]
    · simp only [Memory.remove, hc, if_false, Memory.read, ih h.2]
      by_cases ha : a' = a
      · simp [ha, hc]
      · simp [ha]

theorem read_insert (p : Params) (m : Memory) (a a' : Nat) (b : Byte) :
    Memory.read p (Memory.insert m a b) a' = if a' = a then b else Memory.read p m a' := by
  induction m with
  | nil => simp [Memory.insert, Memory.read, eq_comm]
  | cons c rest ih =>
    simp only [Memory.insert]
    split
    · by_cases ha : a' = a
      · simp [Memory.read, ha]
      · simp [Memory.read, ha, Ne.symm ha]
    · split
      · rename_i hc
        by_cases ha : a' = a
        · simp [Memory.read, ha]
        · simp [Memory.read, ha, hc, Ne.symm ha]
      · rename_i hc
        by_cases ha : a' = a
        · subst ha; simp [Memory.read, ih, hc]
        · simp [Memory.read, ih, ha]

/-- A read after a write to the same address gives the byte written; every other address reads as before
(20_memory.md R56). -/
theorem read_write (p : Params) {m : Memory} (h : Memory.wf p m = true) (a a' : Nat) (b : Byte) :
    Memory.read p (Memory.write p m a b) a' = if a' = a then b else Memory.read p m a' := by
  simp only [Memory.wf, Bool.and_eq_true] at h
  unfold Memory.write
  split
  · rename_i hb; rw [read_remove p h.1, hb]
  · exact read_insert p m a a' b

theorem read_remove_other (p : Params) (m : Memory) {a a' : Nat} (h : a' ≠ a) :
    Memory.read p (Memory.remove m a) a' = Memory.read p m a' := by
  induction m with
  | nil => rfl
  | cons c rest ih =>
    by_cases hc : c.1 = a
    · simp only [Memory.remove, hc, if_true, Memory.read, if_neg (Ne.symm h)]
    · simp only [Memory.remove, hc, if_false, Memory.read, ih]

/-- A write leaves every other address alone, whatever the form of the list (20_memory.md R56). -/
theorem read_write_other (p : Params) (m : Memory) {a a' : Nat} (b : Byte) (h : a' ≠ a) :
    Memory.read p (Memory.write p m a b) a' = Memory.read p m a' := by
  unfold Memory.write
  split
  · exact read_remove_other p m h
  · rw [read_insert, if_neg h]

theorem rises_remove {lo : Nat} {m : Memory} (h : Memory.rises lo m = true) (a : Nat) :
    Memory.rises lo (Memory.remove m a) = true := by
  induction m generalizing lo with
  | nil => rfl
  | cons c rest ih =>
    simp only [Memory.rises, Bool.and_eq_true, decide_eq_true_eq] at h
    simp only [Memory.remove]
    split
    · exact rises_mono h.2 (by omega)
    · simp only [Memory.rises, Bool.and_eq_true, decide_eq_true_eq]; exact ⟨h.1, ih h.2⟩

theorem rises_insert {lo : Nat} {m : Memory} (h : Memory.rises lo m = true) {a : Nat} (ha : lo ≤ a) (b : Byte) :
    Memory.rises lo (Memory.insert m a b) = true := by
  induction m generalizing lo with
  | nil => simp [Memory.insert, Memory.rises, ha]
  | cons c rest ih =>
    simp only [Memory.rises, Bool.and_eq_true, decide_eq_true_eq] at h
    simp only [Memory.insert]
    split
    · simp only [Memory.rises, Bool.and_eq_true, decide_eq_true_eq]; exact ⟨ha, by omega, h.2⟩
    · split
      · rename_i hc; simp only [Memory.rises, Bool.and_eq_true, decide_eq_true_eq]; exact ⟨ha, hc ▸ h.2⟩
      · simp only [Memory.rises, Bool.and_eq_true, decide_eq_true_eq]; exact ⟨h.1, ih h.2 (by omega)⟩

theorem mem_remove {m : Memory} {a : Nat} {c : Host.Cell} (h : c ∈ Memory.remove m a) : c ∈ m := by
  induction m with
  | nil => exact h
  | cons d rest ih =>
    simp only [Memory.remove] at h
    split at h
    · exact List.mem_cons_of_mem _ h
    · rcases List.mem_cons.mp h with h | h
      · exact h ▸ List.mem_cons_self
      · exact List.mem_cons_of_mem _ (ih h)

theorem mem_insert {m : Memory} {a : Nat} {b : Byte} {c : Host.Cell} (h : c ∈ Memory.insert m a b) :
    c = (a, b) ∨ c ∈ m := by
  induction m with
  | nil => simpa [Memory.insert] using h
  | cons d rest ih =>
    simp only [Memory.insert] at h
    split at h
    · simpa using h
    · split at h
      · rcases List.mem_cons.mp h with h | h
        · exact .inl h
        · exact .inr (List.mem_cons_of_mem _ h)
      · rcases List.mem_cons.mp h with h | h
        · exact .inr (h ▸ List.mem_cons_self)
        · exact (ih h).imp id (List.mem_cons_of_mem _)

/-- Every write within 0x000 to 0xFFF keeps the canonical form. -/
theorem wf_write (p : Params) {m : Memory} (h : Memory.wf p m = true) {a : Nat} (ha : a ≤ 0xFFF) (b : Byte) :
    Memory.wf p (Memory.write p m a b) = true := by
  simp only [Memory.wf, Bool.and_eq_true, List.all_eq_true, decide_eq_true_eq, Bool.not_eq_true', decide_eq_false_iff_not]
    at h ⊢
  unfold Memory.write
  split
  · exact ⟨rises_remove h.1 a, fun c hc => h.2 c (mem_remove hc)⟩
  · rename_i hb
    refine ⟨rises_insert h.1 (Nat.zero_le a) b, fun c hc => ?_⟩
    rcases mem_insert hc with rfl | hc
    · exact ⟨ha, hb⟩
    · exact h.2 c hc

/-- The memory of the reset state has the canonical form. -/
theorem wf_reset (p : Params) (n : Nat) : Memory.wf p (State.initial p n).mem = true := rfl

/-! ### Memory through the state -/

theorem byteAt_setByte {s : State} (h : Memory.wf s.params s.mem = true) (a a' : Nat) (b : Byte) :
    (s.setByte a b).byteAt a' = if a' = a then b else s.byteAt a' := read_write s.params h a a' b

theorem wf_setByte {s : State} (h : Memory.wf s.params s.mem = true) {a : Nat} (ha : a ≤ 0xFFF) (b : Byte) :
    Memory.wf (s.setByte a b).params (s.setByte a b).mem = true := wf_write s.params h ha b

/-- `setBytes` changes nothing but memory. -/
theorem setBytes_eq (s : State) (a : Nat) (bytes : List Byte) :
    s.setBytes a bytes = { s with mem := (s.setBytes a bytes).mem } := by
  induction bytes generalizing s a with
  | nil => rfl
  | cons b rest ih => simp only [State.setBytes]; rw [ih]; rfl

@[simp] theorem setBytes_v (s : State) (a : Nat) (bytes : List Byte) : (s.setBytes a bytes).v = s.v := by
  rw [setBytes_eq]
@[simp] theorem setBytes_i (s : State) (a : Nat) (bytes : List Byte) : (s.setBytes a bytes).i = s.i := by
  rw [setBytes_eq]
@[simp] theorem setBytes_pc (s : State) (a : Nat) (bytes : List Byte) : (s.setBytes a bytes).pc = s.pc := by
  rw [setBytes_eq]
@[simp] theorem setBytes_dt (s : State) (a : Nat) (bytes : List Byte) : (s.setBytes a bytes).dt = s.dt := by
  rw [setBytes_eq]
@[simp] theorem setBytes_st (s : State) (a : Nat) (bytes : List Byte) : (s.setBytes a bytes).st = s.st := by
  rw [setBytes_eq]
@[simp] theorem setBytes_stack (s : State) (a : Nat) (bytes : List Byte) : (s.setBytes a bytes).stack = s.stack := by
  rw [setBytes_eq]
@[simp] theorem setBytes_sp (s : State) (a : Nat) (bytes : List Byte) : (s.setBytes a bytes).sp = s.sp := by
  rw [setBytes_eq]
@[simp] theorem setBytes_fb (s : State) (a : Nat) (bytes : List Byte) : (s.setBytes a bytes).fb = s.fb := by
  rw [setBytes_eq]
@[simp] theorem setBytes_k (s : State) (a : Nat) (bytes : List Byte) : (s.setBytes a bytes).k = s.k := by
  rw [setBytes_eq]
@[simp] theorem setBytes_mode (s : State) (a : Nat) (bytes : List Byte) : (s.setBytes a bytes).mode = s.mode := by
  rw [setBytes_eq]
@[simp] theorem setBytes_kp (s : State) (a : Nat) (bytes : List Byte) : (s.setBytes a bytes).kp = s.kp := by
  rw [setBytes_eq]
@[simp] theorem setBytes_params (s : State) (a : Nat) (bytes : List Byte) : (s.setBytes a bytes).params = s.params := by
  rw [setBytes_eq]
@[simp] theorem setBytes_draws (s : State) (a : Nat) (bytes : List Byte) : (s.setBytes a bytes).draws = s.draws := by
  rw [setBytes_eq]
@[simp] theorem setBytes_out (s : State) (a : Nat) (bytes : List Byte) : (s.setBytes a bytes).out = s.out := by
  rw [setBytes_eq]

/-- What memory holds after storing bytes depends on memory and the parameters alone. -/
theorem setBytes_mem_congr {s t : State} (hp : t.params = s.params) (hm : t.mem = s.mem) (a : Nat)
    (bytes : List Byte) : (t.setBytes a bytes).mem = (s.setBytes a bytes).mem := by
  induction bytes generalizing s t a with
  | nil => exact hm
  | cons b rest ih =>
    simp only [State.setBytes]
    exact ih (s := s.setByte a b) (t := t.setByte a b) hp (by rw [setByte_mem, setByte_mem, hp, hm]) (a + 1)

/-- Storing bytes leaves every address outside them alone, whatever the form of the list. -/
theorem byteAt_setBytes_outside (s : State) (a : Nat) (bytes : List Byte) {a' : Nat}
    (h : a' < a ∨ a + bytes.length ≤ a') : (s.setBytes a bytes).byteAt a' = s.byteAt a' := by
  induction bytes generalizing s a with
  | nil => rfl
  | cons b rest ih =>
    simp only [List.length_cons] at h
    simp only [State.setBytes]
    rw [ih _ _ (by omega)]
    exact read_write_other s.params s.mem b (by omega)

theorem wf_setBytes {s : State} (h : Memory.wf s.params s.mem = true) {a : Nat} {bytes : List Byte}
    (ha : a + bytes.length ≤ 0x1000) :
    Memory.wf (s.setBytes a bytes).params (s.setBytes a bytes).mem = true := by
  induction bytes generalizing s a with
  | nil => exact h
  | cons b rest ih =>
    simp only [List.length_cons] at ha
    exact ih (wf_setByte h (by omega) b) (by omega)

/-- What every address reads as after storing bytes at ascending addresses (20_memory.md R66). -/
theorem byteAt_setBytes {s : State} (h : Memory.wf s.params s.mem = true) {a : Nat} {bytes : List Byte}
    (ha : a + bytes.length ≤ 0x1000) (a' : Nat) :
    (s.setBytes a bytes).byteAt a' =
      if a ≤ a' ∧ a' < a + bytes.length then bytes.getD (a' - a) 0 else s.byteAt a' := by
  induction bytes generalizing s a with
  | nil => simp only [State.setBytes, List.length_nil, Nat.add_zero]; rw [if_neg (by omega)]
  | cons b rest ih =>
    simp only [List.length_cons] at ha ⊢
    simp only [State.setBytes]
    rw [ih (wf_setByte h (by omega) b) (by omega), byteAt_setByte h]
    by_cases h1 : a' = a
    · subst h1
      rw [if_neg (by omega), if_pos rfl, if_pos (by omega)]
      simp
    · by_cases h2 : a + 1 ≤ a' ∧ a' < a + 1 + rest.length
      · rw [if_pos h2, if_pos (by omega)]
        obtain ⟨d, rfl⟩ : ∃ d, a' = a + 1 + d := ⟨a' - (a + 1), by omega⟩
        have e1 : a + 1 + d - (a + 1) = d := by omega
        have e2 : a + 1 + d - a = d + 1 := by omega
        rw [e1, e2]
        simp
      · rw [if_neg h2, if_neg h1, if_neg (by omega)]

end Sys2Proof.Machine
end

