-- ==== Sys2Proof/Laws/Ops.lean ====
section
/-! SUPPORT. One lemma per shared operation that says everything it can do: registers, the arbiter's spans, the stack, and
how a checked operation ends a step. -/

namespace Sys2Proof.Machine

/-! ### Registers -/

@[simp] theorem readV_writeV (s : State) (x r : Reg) (b : Byte) :
    (s.writeV x b).readV r = if r = x then b else s.readV r := by
  simp only [State.readV, State.writeV, Fin.getElem_fin, Vector.getElem_set, Fin.ext_iff, eq_comm]

theorem readV_writeVs (s : State) (bytes : List Byte) (r : Reg) :
    (s.writeVs bytes).readV r = bytes.getD r.val (s.readV r) := by
  simp [State.readV, State.writeVs]

@[simp] theorem readV_jumpTo (s : State) (w : Word) (r : Reg) : (s.jumpTo w).readV r = s.readV r := rfl
@[simp] theorem readV_advance (s : State) (r : Reg) : s.advance.readV r = s.readV r := rfl
@[simp] theorem readV_advanceDrawn (s : State) (r : Reg) : s.advanceDrawn.readV r = s.readV r := rfl
@[simp] theorem readV_skipIf (s : State) (c : Bool) (r : Reg) : (s.skipIf c).readV r = s.readV r := by cases c <;> rfl
@[simp] theorem readV_drawn (s : State) (r : Reg) : s.drawn.readV r = s.readV r := rfl
@[simp] theorem readV_setByte (s : State) (a : Nat) (b : Byte) (r : Reg) : (s.setByte a b).readV r = s.readV r := rfl
@[simp] theorem readV_setBytes (s : State) (a : Nat) (bytes : List Byte) (r : Reg) :
    (s.setBytes a bytes).readV r = s.readV r := by rw [setBytes_eq]; rfl
@[simp] theorem readV_bumpIndex (s : State) (x r : Reg) : (s.bumpIndex x).readV r = s.readV r := by
  unfold State.bumpIndex; split <;> rfl

/-- The flag protocol (10_state.md R22): VF holds the flag whatever `x` is, `V[x]` the result unless `x` is VF. -/
@[simp] theorem readV_writeFlagged (s : State) (x r : Reg) (q : Byte × Bool) :
    (s.writeFlagged x q).readV r = if r = vf then flagByte q.2 else if r = x then q.1 else s.readV r := by
  simp only [State.writeFlagged, State.writeFlag, readV_writeV]

@[simp] theorem readV_writeFlag (s : State) (r : Reg) (f : Bool) :
    (s.writeFlag f).readV r = if r = vf then flagByte f else s.readV r := readV_writeV s vf r (flagByte f)

@[simp] theorem readV_putCanvas (s : State) (c : Canvas) (r : Reg) :
    (s.putCanvas c).readV r = if r = vf then flagByte c.2 else s.readV r := readV_writeFlag { s with fb := c.1 } r c.2

@[simp] theorem readV_addToIndex (s : State) (q : Word × Bool) (r : Reg) :
    (s.addToIndex q).readV r = if s.params.fx1eSetsVF = true ∧ r = vf then flagByte q.2 else s.readV r := by
  unfold State.addToIndex
  by_cases h : s.params.fx1eSetsVF = true
  · simp only [h, if_true, true_and]; exact readV_writeFlag { s with i := q.1 } r q.2
  · simp [h]; rfl

/-! ### Memory reads through operations that leave memory alone -/

/-- A state with the same listed bytes and parameters reads the same. -/
theorem byteAt_congr {s t : State} (hp : t.params = s.params) (hm : t.mem = s.mem) (a : Nat) :
    t.byteAt a = s.byteAt a := by simp [State.byteAt, hp, hm]

/-! ### The arbiter (20_memory.md R51, R57, R58) -/

/-- The bounds check: it fails exactly when a byte of the span lies above 0xFFF, and reports the lowest such address. -/
theorem checkSpan_eq (base n : Nat) :
    checkSpan base n =
      if 0 < n ∧ 0x1000 < base + n then .error (.outOfBounds (max base 0x1000)) else .ok () := by
  unfold checkSpan Config.lastAddr
  by_cases h : 0 < n ∧ 0x1000 < base + n
  · rw [if_pos h, if_pos (by omega)]
  · rw [if_neg h, if_neg (by omega)]

theorem readSpan_eq (s : State) (base n : Nat) :
    s.readSpan base n =
      if 0 < n ∧ 0x1000 < base + n then .error (.outOfBounds (max base 0x1000))
      else .ok ((List.range n).map (fun r => s.byteAt (base + r))) := by
  unfold State.readSpan
  rw [checkSpan_eq]
  split <;> split <;> simp_all

theorem writeSpan_eq (s : State) (base : Nat) (bytes : List Byte) :
    s.writeSpan base bytes =
      if 0 < bytes.length ∧ 0x1000 < base + bytes.length then .error (.outOfBounds (max base 0x1000))
      else .ok (s.setBytes base bytes) := by
  unfold State.writeSpan
  rw [checkSpan_eq]
  split <;> split <;> simp_all

theorem fetchWord_eq (s : State) :
    s.fetchWord =
      if 0xFFF ≤ s.pc.toNat then .error (.outOfBounds (max s.pc.toNat 0x1000)) else .ok (s.wordAt s.pc.toNat) := by
  unfold State.fetchWord
  rw [checkSpan_eq]
  by_cases h : 0xFFF ≤ s.pc.toNat
  · rw [if_pos (by omega), if_pos h]
  · rw [if_neg (by omega), if_neg h]

@[simp] theorem readVs_length (s : State) (x : Reg) : (s.readVs x).length = x.val + 1 := by
  simp [State.readVs]

theorem readVs_getD (s : State) (x r : Reg) (h : r ≤ x) : (s.readVs x).getD r.val 0 = s.readV r := by
  have h1 : r.val < x.val + 1 := by have : r.val ≤ x.val := h; omega
  simp [State.readVs, State.readV, List.getD, h1]

/-! ### The stack (10_state.md R29, R30) -/

theorem push_full {s : State} (h : s.sp.val = 16) (w : Word) : s.push w = .error .stackOverflow := by
  unfold State.push; rw [dif_pos h]

theorem push_room {s : State} (h : s.sp.val < 16) (w : Word) :
    s.push w = .ok { s with stack := s.stack.set s.sp.val w h, sp := ⟨s.sp.val + 1, by omega⟩ } := by
  unfold State.push; rw [dif_neg (by omega)]

theorem pop_empty {s : State} (h : s.sp.val = 0) : s.pop = .error .stackUnderflow := by
  unfold State.pop; rw [dif_pos h]

theorem pop_live {s : State} (h : 0 < s.sp.val) :
    s.pop = .ok (s.stack[s.sp.val - 1]'(by omega), { s with sp := ⟨s.sp.val - 1, by omega⟩ }) := by
  unfold State.pop; rw [dif_neg (by omega)]

/-! ### Raising -/

@[simp] theorem orRaise_ok {α : Type} (a : α) (go : α → Result) : orRaise (.ok a) go = go a := rfl
@[simp] theorem orRaise_error {α : Type} (f : Fault) (go : α → Result) : orRaise (.error f) go = .fault f := rfl

/-- A checked operation ends a step with a next state only if it succeeded. -/
theorem orRaise_next {α : Type} {r : Except Fault α} {go : α → Result} {t : State} (h : orRaise r go = .next t) :
    ∃ a, r = .ok a ∧ go a = .next t := by
  cases r with
  | ok a => exact ⟨a, rfl, h⟩
  | error f => cases h

/-- It ends in an error either because it failed or because what followed did. -/
theorem orRaise_fault {α : Type} {r : Except Fault α} {go : α → Result} {f : Fault} (h : orRaise r go = .fault f) :
    r = .error f ∨ ∃ a, r = .ok a ∧ go a = .fault f := by
  cases r with
  | ok a => exact .inr ⟨a, rfl, h⟩
  | error g => cases h; exact .inl rfl

end Sys2Proof.Machine
end

