-- ==== Sys2Proof/Laws/Display.lean ====
section
/-! SUPPORT. The draw primitive (44_display.md R171): which pixels it flips and when it collides. No pixel is touched twice
by one call, since a sprite is 8 of 64 columns wide and at most 15 of 32 rows high. -/

namespace Sys2Proof.Machine

@[simp] theorem pixel_blank (x y : Nat) : Framebuffer.blank.pixel x y = false := by
  unfold Framebuffer.pixel Framebuffer.blank
  simp

/-- A pixel is named by its coordinates modulo 64 and 32. -/
theorem pixel_mod (fb : Framebuffer) {x y x' y' : Nat} (hx : x' % 64 = x % 64) (hy : y' % 32 = y % 32) :
    fb.pixel x' y' = fb.pixel x y := by
  unfold Framebuffer.pixel
  simp only [hx, hy]

theorem pixel_flip (fb : Framebuffer) (x y x' y' : Nat) :
    (fb.flip x y).pixel x' y' =
      if x' % 64 = x % 64 ∧ y' % 32 = y % 32 then !fb.pixel x' y' else fb.pixel x' y' := by
  by_cases hy : y' % 32 = y % 32
  · by_cases hx : x' % 64 = x % 64
    · rw [if_pos ⟨hx, hy⟩, pixel_mod fb hx hy, pixel_mod _ hx hy]
      simp [Framebuffer.flip, Framebuffer.pixel]
    · rw [if_neg (fun h => hx h.1)]
      simp only [Framebuffer.flip, Framebuffer.pixel, hy, Vector.getElem_set_self]
      rw [Vector.getElem_set_ne _ _ (Ne.symm hx)]
  · rw [if_neg (fun h => hy h.2)]
    have hrow : (fb.flip x y)[y' % 32]'(Nat.mod_lt _ (by decide)) = fb[y' % 32]'(Nat.mod_lt _ (by decide)) := by
      unfold Framebuffer.flip
      exact Vector.getElem_set_ne _ _ (Ne.symm hy)
    exact congrArg (fun row : Vector Bool 64 => row[x' % 64]'(Nat.mod_lt _ (by decide))) hrow

/-- Two framebuffers with the same pixels are equal. -/
theorem fb_ext {f g : Framebuffer} (h : ∀ x y, x < 64 → y < 32 → f.pixel x y = g.pixel x y) : f = g := by
  apply Vector.ext
  intro y hy
  apply Vector.ext
  intro x hx
  have := h x y hx hy
  simpa [Framebuffer.pixel, Nat.mod_eq_of_lt hx, Nat.mod_eq_of_lt hy] using this

/-- Some of the columns `c` to `c + n - 1` of row `b` has a 1 bit that falls on pixel (px, py). -/
def ColumnHits (b : Byte) (x0 y c n px py : Nat) : Prop :=
  ∃ k, c ≤ k ∧ k < c + n ∧ b.getLsbD (7 - k) = true ∧ (x0 + k) % 64 = px % 64 ∧ y % 32 = py % 32

theorem drawColumns_pixel (b : Byte) (x0 y n c : Nat) (acc : Canvas) (hn : c + n ≤ 8) (px py : Nat) :
    ((drawColumns b x0 y n c acc).1.pixel px py ≠ acc.1.pixel px py ↔ ColumnHits b x0 y c n px py) := by
  induction n generalizing c acc with
  | zero =>
    simp only [drawColumns, ne_eq, not_true_eq_false, false_iff]
    rintro ⟨k, h1, h2, -⟩
    omega
  | succ n ih =>
    simp only [drawColumns]
    have ih' := fun a => ih (c + 1) a (by omega)
    by_cases hb : b.getLsbD (7 - c) = true
    · rw [if_pos hb]
      have h := ih' (drawPixel (x0 + c) y acc)
      have hp : (drawPixel (x0 + c) y acc).1.pixel px py =
          if px % 64 = (x0 + c) % 64 ∧ py % 32 = y % 32 then !acc.1.pixel px py else acc.1.pixel px py :=
        pixel_flip acc.1 (x0 + c) y px py
      by_cases hc : px % 64 = (x0 + c) % 64 ∧ py % 32 = y % 32
      · rw [if_pos hc] at hp
        have hno : ¬ ColumnHits b x0 y (c + 1) n px py := by
          rintro ⟨k, h1, h2, -, h4, -⟩
          omega
        have heq : (drawColumns b x0 y n (c + 1) (drawPixel (x0 + c) y acc)).1.pixel px py = !acc.1.pixel px py := by
          rw [← hp]
          exact Classical.not_not.mp (fun hne => hno (h.mp hne))
        rw [heq]
        constructor
        · intro _
          exact ⟨c, by omega, by omega, hb, hc.1.symm, hc.2.symm⟩
        · intro _
          simp
      · rw [if_neg hc] at hp
        rw [← hp, h]
        constructor
        · rintro ⟨k, h1, h2, h3, h4, h5⟩
          exact ⟨k, by omega, by omega, h3, h4, h5⟩
        · rintro ⟨k, h1, h2, h3, h4, h5⟩
          have : k ≠ c := by rintro rfl; exact hc ⟨h4.symm, h5.symm⟩
          exact ⟨k, by omega, by omega, h3, h4, h5⟩
    · rw [if_neg hb, ih' acc]
      constructor
      · rintro ⟨k, h1, h2, h3, h4, h5⟩
        exact ⟨k, by omega, by omega, h3, h4, h5⟩
      · rintro ⟨k, h1, h2, h3, h4, h5⟩
        have : k ≠ c := by rintro rfl; exact hb h3
        exact ⟨k, by omega, by omega, h3, h4, h5⟩

theorem drawColumns_collision (b : Byte) (x0 y n c : Nat) (acc : Canvas) (hn : c + n ≤ 8) :
    ((drawColumns b x0 y n c acc).2 = true ↔
      acc.2 = true ∨ ∃ k, c ≤ k ∧ k < c + n ∧ b.getLsbD (7 - k) = true ∧ acc.1.pixel (x0 + k) y = true) := by
  induction n generalizing c acc with
  | zero =>
    simp only [drawColumns]
    constructor
    · exact .inl
    · rintro (h | ⟨k, h1, h2, -⟩)
      · exact h
      · omega
  | succ n ih =>
    simp only [drawColumns]
    by_cases hb : b.getLsbD (7 - c) = true
    · rw [if_pos hb, ih (c + 1) _ (by omega)]
      have hf : ∀ k, c + 1 ≤ k → k < c + 1 + n →
          (drawPixel (x0 + c) y acc).1.pixel (x0 + k) y = acc.1.pixel (x0 + k) y := fun k h1 h2 =>
        (pixel_flip acc.1 (x0 + c) y (x0 + k) y).trans (if_neg (by omega))
      have hd : (drawPixel (x0 + c) y acc).2 = (acc.2 || acc.1.pixel (x0 + c) y) := rfl
      rw [hd, Bool.or_eq_true]
      constructor
      · rintro ((h | h) | ⟨k, h1, h2, h3, h4⟩)
        · exact .inl h
        · exact .inr ⟨c, by omega, by omega, hb, h⟩
        · exact .inr ⟨k, by omega, by omega, h3, hf k h1 h2 ▸ h4⟩
      · rintro (h | ⟨k, h1, h2, h3, h4⟩)
        · exact .inl (.inl h)
        · by_cases hk : k = c
          · exact .inl (.inr (hk ▸ h4))
          · exact .inr ⟨k, by omega, by omega, h3, (hf k (by omega) (by omega)).trans h4⟩
    · rw [if_neg hb, ih (c + 1) _ (by omega)]
      constructor
      · rintro (h | ⟨k, h1, h2, h3, h4⟩)
        · exact .inl h
        · exact .inr ⟨k, by omega, by omega, h3, h4⟩
      · rintro (h | ⟨k, h1, h2, h3, h4⟩)
        · exact .inl h
        · have : k ≠ c := by rintro rfl; exact hb h3
          exact .inr ⟨k, by omega, by omega, h3, h4⟩

/-- Some 1 bit of the rows, the first of them drawn at row `y`, falls on pixel (px, py). -/
def SpriteHits (rows : List Byte) (x0 y px py : Nat) : Prop :=
  ∃ r c, r < rows.length ∧ c < 8 ∧ (rows.getD r 0).getLsbD (7 - c) = true ∧
    (x0 + c) % 64 = px % 64 ∧ (y + r) % 32 = py % 32

theorem drawRows_pixel (x0 y : Nat) (rows : List Byte) (acc : Canvas) (hr : rows.length ≤ 32) (px py : Nat) :
    ((drawRows x0 y rows acc).1.pixel px py ≠ acc.1.pixel px py ↔ SpriteHits rows x0 y px py) := by
  induction rows generalizing y acc with
  | nil =>
    simp only [drawRows, ne_eq, not_true_eq_false, false_iff]
    rintro ⟨r, c, h1, -⟩
    exact absurd h1 (Nat.not_lt_zero _)
  | cons b rest ih =>
    simp only [List.length_cons] at hr
    simp only [drawRows]
    have h := ih (y + 1) (drawColumns b x0 y 8 0 acc) (by omega)
    have hc := drawColumns_pixel b x0 y 8 0 acc (by omega) px py
    by_cases hh : ColumnHits b x0 y 0 8 px py
    · have hno : ¬ SpriteHits rest x0 (y + 1) px py := by
        rintro ⟨r, c, h1, -, -, -, h5⟩
        obtain ⟨k, -, -, -, -, h6⟩ := hh
        omega
      have heq := Classical.not_not.mp (fun hne => hno (h.mp hne))
      rw [heq]
      constructor
      · intro _
        obtain ⟨k, -, h2, h3, h4, h5⟩ := hh
        exact ⟨0, k, by simp, by omega, h3, h4, h5⟩
      · intro _
        exact hc.mpr hh
    · have heq := Classical.not_not.mp (fun hne => hh (hc.mp hne))
      rw [← heq, h]
      constructor
      · rintro ⟨r, c, h1, h2, h3, h4, h5⟩
        exact ⟨r + 1, c, by simpa using h1, h2, by simpa using h3, h4, by rw [← h5]; congr 1; omega⟩
      · rintro ⟨r, c, h1, h2, h3, h4, h5⟩
        cases r with
        | zero => exact absurd ⟨c, by omega, by omega, by simpa using h3, h4, by simpa using h5⟩ hh
        | succ r =>
          exact ⟨r, c, by simpa using h1, h2, by simpa using h3, h4, by rw [← h5]; congr 1; omega⟩

theorem drawRows_collision (x0 y : Nat) (rows : List Byte) (acc : Canvas) (hr : rows.length ≤ 32) :
    ((drawRows x0 y rows acc).2 = true ↔
      acc.2 = true ∨ ∃ r c, r < rows.length ∧ c < 8 ∧ (rows.getD r 0).getLsbD (7 - c) = true ∧
        acc.1.pixel (x0 + c) (y + r) = true) := by
  induction rows generalizing y acc with
  | nil =>
    simp only [drawRows]
    constructor
    · exact .inl
    · rintro (h | ⟨r, c, h1, -⟩)
      · exact h
      · exact absurd h1 (Nat.not_lt_zero _)
  | cons b rest ih =>
    simp only [List.length_cons] at hr
    simp only [drawRows]
    rw [ih (y + 1) _ (by omega), drawColumns_collision b x0 y 8 0 acc (by omega)]
    have hf : ∀ c r, r < rest.length →
        (drawColumns b x0 y 8 0 acc).1.pixel (x0 + c) (y + 1 + r) = acc.1.pixel (x0 + c) (y + (r + 1)) := by
      intro c r h1
      rw [show y + (r + 1) = y + 1 + r by omega]
      refine Classical.not_not.mp fun hne => ?_
      obtain ⟨k, -, -, -, -, h6⟩ := (drawColumns_pixel b x0 y 8 0 acc (by omega) _ _).mp hne
      omega
    constructor
    · rintro ((h | ⟨k, -, h2, h3, h4⟩) | ⟨r, c, h1, h2, h3, h4⟩)
      · exact .inl h
      · exact .inr ⟨0, k, by simp, by omega, by simpa using h3, h4⟩
      · exact .inr ⟨r + 1, c, by simpa using h1, h2, by simpa using h3, (hf c r h1).symm.trans h4⟩
    · rintro (h | ⟨r, c, h1, h2, h3, h4⟩)
      · exact .inl (.inl h)
      · cases r with
        | zero => exact .inl (.inr ⟨c, by omega, by omega, by simpa using h3, h4⟩)
        | succ r =>
          have h1' : r < rest.length := by simpa using h1
          exact .inr ⟨r, c, h1', h2, by simpa using h3, (hf c r h1').trans h4⟩

/-- `Draw` flips exactly the pixels that a 1 bit of the sprite falls on. -/
theorem draw_pixel (fb : Framebuffer) (x0 y0 : Byte) (rows : List Byte) (hr : rows.length ≤ 32) (px py : Nat) :
    ((draw fb x0 y0 rows).1.pixel px py ≠ fb.pixel px py ↔ SpriteHits rows x0.toNat y0.toNat px py) :=
  drawRows_pixel x0.toNat y0.toNat rows (fb, false) hr px py

/-- `Draw` collides exactly when a 1 bit of the sprite falls on a pixel that is set. -/
theorem draw_collision (fb : Framebuffer) (x0 y0 : Byte) (rows : List Byte) (hr : rows.length ≤ 32) :
    ((draw fb x0 y0 rows).2 = true ↔
      ∃ r c, r < rows.length ∧ c < 8 ∧ (rows.getD r 0).getLsbD (7 - c) = true ∧
        fb.pixel (x0.toNat + c) (y0.toNat + r) = true) := by
  unfold draw
  rw [drawRows_collision x0.toNat y0.toNat rows (fb, false) hr]
  simp

end Sys2Proof.Machine
end

