-- ==== Sys2Proof/Laws/PerInstr.lean ====
section
/-! SUPPORT. One lemma per instruction: its word is accepted by its own row of the opcode map (30_encoding.md R74). -/

namespace Sys2Proof

/-- A word of format A is accepted by the row of its OP. -/
theorem accepts_encodeA (op : BitVec 4) (nnn : Addr) {r : OpcodeRow} (hm : r.mask = 0xF000)
    (hv : r.value.toNat = op.toNat * 4096) : r.accepts (encodeA op nnn) = true := by
  simp only [OpcodeRow.accepts, beq_iff_eq, hm]
  apply BitVec.eq_of_toNat_eq
  rw [and_F000, encodeA_toNat, hv]
  omega

/-- A word of format RI is accepted by the row of its OP. -/
theorem accepts_encodeRI (op : BitVec 4) (x : Reg) (nn : Byte) {r : OpcodeRow} (hm : r.mask = 0xF000)
    (hv : r.value.toNat = op.toNat * 4096) : r.accepts (encodeRI op x nn) = true := by
  simp only [OpcodeRow.accepts, beq_iff_eq, hm]
  apply BitVec.eq_of_toNat_eq
  rw [and_F000, encodeRI_toNat, hv]
  omega

/-- A word of format R is accepted by the row of its OP and its function code NN. -/
theorem accepts_encodeR (op : BitVec 4) (x : Reg) (nn : Byte) {r : OpcodeRow} (hm : r.mask = 0xF0FF)
    (hv : r.value.toNat = op.toNat * 4096 + nn.toNat) : r.accepts (encodeRI op x nn) = true := by
  simp only [OpcodeRow.accepts, beq_iff_eq, hm]
  apply BitVec.eq_of_toNat_eq
  rw [and_F0FF, encodeRI_toNat, hv]
  omega

/-- A word of format RR is accepted by the row of its OP and its function code N. -/
theorem accepts_encodeRR (op : BitVec 4) (x y : Reg) (n : BitVec 4) {r : OpcodeRow} (hm : r.mask = 0xF00F)
    (hv : r.value.toNat = op.toNat * 4096 + n.toNat) : r.accepts (encodeRR op x y n) = true := by
  simp only [OpcodeRow.accepts, beq_iff_eq, hm]
  apply BitVec.eq_of_toNat_eq
  rw [and_F00F, encodeRR_toNat, hv]
  omega

/-- A word of format RRN is accepted by the row of its OP. -/
theorem accepts_encodeRRN (op : BitVec 4) (x y : Reg) (n : BitVec 4) {r : OpcodeRow} (hm : r.mask = 0xF000)
    (hv : r.value.toNat = op.toNat * 4096) : r.accepts (encodeRR op x y n) = true := by
  simp only [OpcodeRow.accepts, beq_iff_eq, hm]
  apply BitVec.eq_of_toNat_eq
  rw [and_F000, encodeRR_toNat, hv]
  omega

namespace Laws.RowMatch

/-- The word of `i` is accepted by the row of the opcode map that `i` is numbered by. -/
def Statement (i : Instr) : Prop :=
  ∃ row, opcodeTable[i.rowNumber - 1]? = some row ∧ row.accepts (encode i) = true

theorem nop : Statement (.nop) := ⟨_, rfl, by decide⟩
theorem cls : Statement (.cls) := ⟨_, rfl, by decide⟩
theorem ret : Statement (.ret) := ⟨_, rfl, by decide⟩
theorem jp (nnn : Addr) : Statement (.jp nnn) := ⟨_, rfl, accepts_encodeA _ nnn rfl (by decide)⟩
theorem call (nnn : Addr) : Statement (.call nnn) := ⟨_, rfl, accepts_encodeA _ nnn rfl (by decide)⟩
theorem seImm (x : Reg) (nn : Byte) : Statement (.seImm x nn) := ⟨_, rfl, accepts_encodeRI _ x nn rfl (by decide)⟩
theorem sneImm (x : Reg) (nn : Byte) : Statement (.sneImm x nn) := ⟨_, rfl, accepts_encodeRI _ x nn rfl (by decide)⟩
theorem seReg (x : Reg) (y : Reg) : Statement (.seReg x y) := ⟨_, rfl, accepts_encodeRR _ x y _ rfl (by decide)⟩
theorem ldImm (x : Reg) (nn : Byte) : Statement (.ldImm x nn) := ⟨_, rfl, accepts_encodeRI _ x nn rfl (by decide)⟩
theorem addImm (x : Reg) (nn : Byte) : Statement (.addImm x nn) := ⟨_, rfl, accepts_encodeRI _ x nn rfl (by decide)⟩
theorem ldReg (x : Reg) (y : Reg) : Statement (.ldReg x y) := ⟨_, rfl, accepts_encodeRR _ x y _ rfl (by decide)⟩
theorem orReg (x : Reg) (y : Reg) : Statement (.orReg x y) := ⟨_, rfl, accepts_encodeRR _ x y _ rfl (by decide)⟩
theorem andReg (x : Reg) (y : Reg) : Statement (.andReg x y) := ⟨_, rfl, accepts_encodeRR _ x y _ rfl (by decide)⟩
theorem xorReg (x : Reg) (y : Reg) : Statement (.xorReg x y) := ⟨_, rfl, accepts_encodeRR _ x y _ rfl (by decide)⟩
theorem addReg (x : Reg) (y : Reg) : Statement (.addReg x y) := ⟨_, rfl, accepts_encodeRR _ x y _ rfl (by decide)⟩
theorem subReg (x : Reg) (y : Reg) : Statement (.subReg x y) := ⟨_, rfl, accepts_encodeRR _ x y _ rfl (by decide)⟩
theorem shr (x : Reg) (y : Reg) : Statement (.shr x y) := ⟨_, rfl, accepts_encodeRR _ x y _ rfl (by decide)⟩
theorem subnReg (x : Reg) (y : Reg) : Statement (.subnReg x y) := ⟨_, rfl, accepts_encodeRR _ x y _ rfl (by decide)⟩
theorem shl (x : Reg) (y : Reg) : Statement (.shl x y) := ⟨_, rfl, accepts_encodeRR _ x y _ rfl (by decide)⟩
theorem sneReg (x : Reg) (y : Reg) : Statement (.sneReg x y) := ⟨_, rfl, accepts_encodeRR _ x y _ rfl (by decide)⟩
theorem ldI (nnn : Addr) : Statement (.ldI nnn) := ⟨_, rfl, accepts_encodeA _ nnn rfl (by decide)⟩
theorem jpV0 (nnn : Addr) : Statement (.jpV0 nnn) := ⟨_, rfl, accepts_encodeA _ nnn rfl (by decide)⟩
theorem rnd (x : Reg) (nn : Byte) : Statement (.rnd x nn) := ⟨_, rfl, accepts_encodeRI _ x nn rfl (by decide)⟩
theorem drw (x : Reg) (y : Reg) (n : Fin 16) : Statement (.drw x y n) := ⟨_, rfl, accepts_encodeRRN _ x y _ rfl (by decide)⟩
theorem skp (x : Reg) : Statement (.skp x) := ⟨_, rfl, accepts_encodeR _ x _ rfl (by decide)⟩
theorem sknp (x : Reg) : Statement (.sknp x) := ⟨_, rfl, accepts_encodeR _ x _ rfl (by decide)⟩
theorem ldVxDt (x : Reg) : Statement (.ldVxDt x) := ⟨_, rfl, accepts_encodeR _ x _ rfl (by decide)⟩
theorem ldVxK (x : Reg) : Statement (.ldVxK x) := ⟨_, rfl, accepts_encodeR _ x _ rfl (by decide)⟩
theorem ldDtVx (x : Reg) : Statement (.ldDtVx x) := ⟨_, rfl, accepts_encodeR _ x _ rfl (by decide)⟩
theorem ldStVx (x : Reg) : Statement (.ldStVx x) := ⟨_, rfl, accepts_encodeR _ x _ rfl (by decide)⟩
theorem addI (x : Reg) : Statement (.addI x) := ⟨_, rfl, accepts_encodeR _ x _ rfl (by decide)⟩
theorem ldF (x : Reg) : Statement (.ldF x) := ⟨_, rfl, accepts_encodeR _ x _ rfl (by decide)⟩
theorem ldB (x : Reg) : Statement (.ldB x) := ⟨_, rfl, accepts_encodeR _ x _ rfl (by decide)⟩
theorem ldMemVx (x : Reg) : Statement (.ldMemVx x) := ⟨_, rfl, accepts_encodeR _ x _ rfl (by decide)⟩
theorem ldVxMem (x : Reg) : Statement (.ldVxMem x) := ⟨_, rfl, accepts_encodeR _ x _ rfl (by decide)⟩

end Laws.RowMatch

end Sys2Proof
end

