-- ==== Sys2Proof/Tests/Slice0.lean ====
section
/-! SUPPORT. Tests. The expected results are those of 95_test_vectors.md (V and S numbers) or are worked out by hand from
the rule named; the witnesses at the end meet the hypotheses of the obligations of the same name. -/

namespace Sys2Proof.Tests

open Sys2Proof Sys2Proof.Machine

/-! ### Helpers -/

/-- The recommended parameters, the three Booleans as given (00_scope.md R7). -/
def testParams (ext incr vfs : Bool) : Params :=
  { extShl := ext, memIncrementI := incr, fx1eSetsVF := vfs, fontBase := 0x050, fontData := Config.fontData }

/-- The state after reset with all three Booleans false. -/
def start : State := State.initial (testParams false false false) 0

/-- The state after reset with all three Booleans true. -/
def startExt : State := State.initial (testParams true true true) 0

/-- The state with word `w` at pc, high byte first. -/
def holding (s : State) (w : Word) : State := s.setBytes s.pc.toNat [highByte w, lowByte w]

/-- The step that fetches `w` completes in a state with property `p`. -/
def gives (s : State) (w : Word) (p : State → Bool) : Bool :=
  match step (holding s w) with
  | .next t => p t
  | .fault _ => false
  | .refused _ => false

/-- The step that fetches `w` raises `f`. -/
def raises (s : State) (w : Word) (f : Fault) : Bool :=
  match step (holding s w) with
  | .next _ => false
  | .fault g => g == f
  | .refused _ => false

/-- V1 and V2 loaded. -/
def pair (a b : Byte) : State := (start.writeV 1 a).writeV 2 b

/-! ### WellFormed: an ill-formed term is refused -/

theorem test_shl_needs_its_parameter :
    (Instr.shl 1 2).wellFormed false = false ∧ (Instr.shl 1 2).wellFormed true = true ∧
    (Instr.shr 1 2).wellFormed false = true := by decide

/-! ### Decoding: words written out from the opcode map (30_encoding.md R74) -/

theorem test_decode_flow :
    decode false 0x0000 = .ok .nop ∧ decode false 0x00EE = .ok .ret ∧ decode false 0x1ABC = .ok (.jp 0xABC) ∧
    decode false 0x2300 = .ok (.call 0x300) ∧ decode false 0x3342 = .ok (.seImm 3 0x42) ∧
    decode false 0x4543 = .ok (.sneImm 5 0x43) ∧ decode false 0x5120 = .ok (.seReg 1 2) ∧
    decode false 0x9AB0 = .ok (.sneReg 0xA 0xB) ∧ decode false 0xB300 = .ok (.jpV0 0x300) := by decide

theorem test_decode_alu :
    decode false 0x6AFF = .ok (.ldImm 0xA 0xFF) ∧ decode false 0x7103 = .ok (.addImm 1 0x03) ∧
    decode false 0x8120 = .ok (.ldReg 1 2) ∧ decode false 0x8121 = .ok (.orReg 1 2) ∧
    decode false 0x8122 = .ok (.andReg 1 2) ∧ decode false 0x8123 = .ok (.xorReg 1 2) ∧
    decode false 0x8F14 = .ok (.addReg 0xF 1) ∧ decode false 0x81F5 = .ok (.subReg 1 0xF) ∧
    decode false 0x8AB6 = .ok (.shr 0xA 0xB) ∧ decode false 0x8127 = .ok (.subnReg 1 2) ∧
    decode true 0x812E = .ok (.shl 1 2) ∧ decode false 0x812E = .error .op8XYE := by decide

theorem test_decode_index :
    decode false 0xAFFF = .ok (.ldI 0xFFF) ∧ decode false 0xF21E = .ok (.addI 2) ∧ decode false 0xF029 = .ok (.ldF 0) ∧
    decode false 0xF533 = .ok (.ldB 5) ∧ decode false 0xF255 = .ok (.ldMemVx 2) ∧
    decode false 0xFF65 = .ok (.ldVxMem 0xF) := by decide

theorem test_decode_timer_key_random :
    decode false 0xF107 = .ok (.ldVxDt 1) ∧ decode false 0xF015 = .ok (.ldDtVx 0) ∧ decode false 0xF518 = .ok (.ldStVx 5) ∧
    decode false 0xE09E = .ok (.skp 0) ∧ decode false 0xEFA1 = .ok (.sknp 0xF) ∧ decode false 0xF30A = .ok (.ldVxK 3) ∧
    decode false 0xC00F = .ok (.rnd 0 0x0F) := by decide

theorem test_decode_display :
    decode false 0x00E0 = .ok .cls ∧ decode false 0xDAB2 = .ok (.drw 0xA 0xB 2) ∧
    decode false 0xD000 = .ok (.drw 0 0 0) := by decide

/-- V150 to V170. -/
theorem test_decode_invalid :
    ([0x0001, 0x00E1, 0x00EF, 0x00FE, 0x0100, 0x0FFF, 0x5001, 0x512F, 0x8008, 0x812D, 0x800F, 0x9001, 0xE000, 0xE09F,
      0xE1A0, 0xF000, 0xF166, 0xF1FF, 0xF075, 0xF085, 0xFFFF] : List Word).all
      (fun w => match decode false w with
        | .ok _ => false
        | .error _ => true) = true := by decide

theorem test_decode_bytes :
    decodeBytes false [0x60, 0xAB, 0x12] = .ok (.ldImm 0 0xAB, [0x12]) ∧
    decodeBytes false [0x60] = .error .truncated := by decide

/-! ### Fetch and errors -/

/-- V140: the fetch at 0xFFE succeeds. -/
theorem test_fetch_last : gives { start with pc := 0xFFE } 0x60AB
    (fun t => t.readV 0 == 0xAB && t.pc == 0x1000) = true := by decide

/-- V141, V142, V143. -/
theorem test_fetch_above :
    ([(0xFFF, 0x1000), (0x1000, 0x1000), (0x10FE, 0x10FE)] : List (Word × Nat)).all
      (fun q => match step { start with pc := q.1 } with
        | .fault f => f == .outOfBounds q.2
        | .next _ => false
        | .refused _ => false) = true := by decide

/-- V64, V150. -/
theorem test_invalid : raises (start.writeV 1 0x81) 0x810E (.invalidOpcode 0x810E) = true ∧
    raises start 0x0001 (.invalidOpcode 0x0001) = true := by decide

/-! ### Control flow -/

/-- V26. -/
theorem test_nop : gives { start with pc := 0xFFE } 0x0000 (fun t => t.pc == 0x1000) = true := by decide

/-- V4. -/
theorem test_ret : gives { start with sp := 16, stack := start.stack.set 15 0xABC } 0x00EE
    (fun t => t.pc == 0xABC && t.sp == 15) = true := by decide

/-- V2. -/
theorem test_ret_empty : raises start 0x00EE .stackUnderflow = true := by decide

/-- V6. -/
theorem test_jp_odd : gives start 0x1201 (fun t => t.pc == 0x201) = true := by decide

/-- V10. -/
theorem test_call : gives { start with sp := 15 } 0x2300
    (fun t => t.pc == 0x300 && t.stack[15] == 0x202 && t.sp == 16) = true := by decide

/-- V11. -/
theorem test_call_full : raises { start with sp := 16 } 0x2300 .stackOverflow = true := by decide

/-- V13, V14. -/
theorem test_se_imm : gives (start.writeV 3 0x42) 0x3342 (fun t => t.pc == 0x204) = true ∧
    gives (start.writeV 3 0x42) 0x3343 (fun t => t.pc == 0x202) = true := by decide

/-- V15, V16. -/
theorem test_sne_imm : gives (start.writeV 3 0x42) 0x4342 (fun t => t.pc == 0x202) = true ∧
    gives (start.writeV 3 0x42) 0x4343 (fun t => t.pc == 0x204) = true := by decide

/-- V17, V18. -/
theorem test_se_reg : gives (pair 7 7) 0x5120 (fun t => t.pc == 0x204) = true ∧
    gives (pair 7 8) 0x5120 (fun t => t.pc == 0x202) = true := by decide

/-- V20, V21. -/
theorem test_sne_reg : gives (pair 7 7) 0x9120 (fun t => t.pc == 0x202) = true ∧
    gives (pair 7 8) 0x9120 (fun t => t.pc == 0x204) = true := by decide

/-- V24. -/
theorem test_jp_v0 : gives (start.writeV 0 0xFF) 0xBFFF (fun t => t.pc == 0x10FE) = true := by decide

/-! ### ALU -/

/-- V31. -/
theorem test_ld_imm : gives (start.writeV vf 1) 0x6F00 (fun t => t.readV vf == 0 && t.pc == 0x202) = true := by decide

/-- V33. -/
theorem test_add_imm : gives ((start.writeV 1 0xFE).writeV vf 1) 0x7103
    (fun t => t.readV 1 == 0x01 && t.readV vf == 1) = true := by decide

/-- V35. -/
theorem test_ld_reg : gives (start.writeV 2 0x5A) 0x8120 (fun t => t.readV 1 == 0x5A && t.readV 2 == 0x5A) = true := by
  decide

/-- V36. -/
theorem test_or : gives ((pair 0xF0 0x0F).writeV vf 7) 0x8121
    (fun t => t.readV 1 == 0xFF && t.readV vf == 7) = true := by decide

/-- V37. -/
theorem test_and : gives ((pair 0xF0 0x3C).writeV vf 7) 0x8122
    (fun t => t.readV 1 == 0x30 && t.readV vf == 7) = true := by decide

/-- V38. -/
theorem test_xor : gives ((pair 0xF0 0x3C).writeV vf 7) 0x8123
    (fun t => t.readV 1 == 0xCC && t.readV vf == 7) = true := by decide

/-- V42. -/
theorem test_add_reg : gives (pair 0xFF 0x01) 0x8124 (fun t => t.readV 1 == 0 && t.readV vf == 1) = true := by decide

/-- V44, V46: VF as an operand. -/
theorem test_add_reg_vf : gives ((start.writeV vf 200).writeV 1 100) 0x8F14 (fun t => t.readV vf == 1) = true ∧
    gives ((start.writeV vf 1).writeV 1 0xFF) 0x81F4 (fun t => t.readV 1 == 0 && t.readV vf == 1) = true := by decide

/-- V49. -/
theorem test_sub : gives (pair 5 10) 0x8125 (fun t => t.readV 1 == 0xFB && t.readV vf == 0) = true := by decide

/-- V51, V54. -/
theorem test_sub_equal : gives (pair 7 7) 0x8125 (fun t => t.readV 1 == 0 && t.readV vf == 1) = true ∧
    gives (start.writeV vf 1) 0x81F5 (fun t => t.readV 1 == 0xFF && t.readV vf == 0) = true := by decide

/-- V57, V58. -/
theorem test_shr : gives (start.writeV 1 0xFF) 0x8126 (fun t => t.readV 1 == 0x7F && t.readV vf == 1) = true ∧
    gives (start.writeV vf 3) 0x8F06 (fun t => t.readV vf == 1) = true := by decide

/-- V60, V61. -/
theorem test_subn : gives (pair 5 10) 0x8127 (fun t => t.readV 1 == 5 && t.readV vf == 1) = true ∧
    gives (pair 10 5) 0x8127 (fun t => t.readV 1 == 0xFB && t.readV vf == 0) = true := by decide

/-- V65, V66. -/
theorem test_shl : gives (startExt.writeV 1 0x81) 0x810E (fun t => t.readV 1 == 0x02 && t.readV vf == 1) = true ∧
    gives ((startExt.writeV 1 0x40).writeV vf 1) 0x812E
      (fun t => t.readV 1 == 0x80 && t.readV vf == 0) = true := by decide

/-! ### Index register and data memory -/

/-- V70. -/
theorem test_ld_i : gives start 0xAFFF (fun t => t.i == 0xFFF) = true := by decide

/-- V73, V75. -/
theorem test_add_i : gives (({ start with i := 0xFFF }.writeV 2 1).writeV vf 9) 0xF21E
      (fun t => t.i == 0x1000 && t.readV vf == 9) = true ∧
    gives ({ start with i := 0xFFFF }.writeV 2 1) 0xF21E (fun t => t.i == 0) = true := by decide

/-- V74, V76. -/
theorem test_add_i_flag : gives ({ startExt with i := 0xFFF }.writeV 2 1) 0xF21E
      (fun t => t.i == 0x1000 && t.readV vf == 1) = true ∧
    gives ({ startExt with i := 0xFF0 }.writeV vf 0x20) 0xFF1E
      (fun t => t.i == 0x1010 && t.readV vf == 1) = true := by decide

/-- V78, V79. -/
theorem test_ld_f : gives (start.writeV 0 0x1A) 0xF029 (fun t => t.i == 0x82) = true ∧
    gives (start.writeV 0 0x0F) 0xF029 (fun t => t.i == 0x9B) = true := by decide

/-- V83. -/
theorem test_ld_b : gives ({ start with i := 0xFFD }.writeV 0 123) 0xF033
    (fun t => t.byteAt 0xFFD == 1 && t.byteAt 0xFFE == 2 && t.byteAt 0xFFF == 3 && t.i == 0xFFD) = true := by decide

/-- V84, V85. -/
theorem test_ld_b_above : raises ({ start with i := 0xFFE }.writeV 0 123) 0xF033 (.outOfBounds 0x1000) = true ∧
    raises { start with i := 0x1001 } 0xF033 (.outOfBounds 0x1001) = true := by decide

/-- V86. -/
theorem test_ld_mem_vx : gives { (pair 3 4).writeV 0 2 with i := 0x304 } 0xF255
    (fun t => t.byteAt 0x304 == 2 && t.byteAt 0x305 == 3 && t.byteAt 0x306 == 4 && t.i == 0x304) = true := by decide

/-- V87, V89. -/
theorem test_ld_mem_vx_bump : gives { startExt.writeV 2 4 with i := 0x304 } 0xF255
      (fun t => t.byteAt 0x306 == 4 && t.i == 0x307) = true ∧
    raises { start with i := 0x1000 } 0xF055 (.outOfBounds 0x1000) = true := by decide

/-- V95. -/
theorem test_ld_vx_mem : gives { start.writeV 2 9 with i := 0x200 } 0xF165
    (fun t => t.readV 0 == 0xF1 && t.readV 1 == 0x65 && t.readV 2 == 9 && t.i == 0x200) = true := by decide

/-- R135 with `MEM_INCREMENT_I`; V94. -/
theorem test_ld_vx_mem_bump : gives { startExt with i := 0x0FFE } 0xF165 (fun t => t.i == 0x1000) = true ∧
    raises { start with i := 0x0FF1 } 0xFF65 (.outOfBounds 0x1000) = true := by decide

/-! ### Timers, keypad, random -/

/-- V100. -/
theorem test_ld_vx_dt : gives { start with dt := 0x3C } 0xF107 (fun t => t.readV 1 == 0x3C && t.dt == 0x3C) = true := by
  decide

/-- V101. -/
theorem test_ld_dt_vx : gives (start.writeV 0 3) 0xF015 (fun t => t.dt == 3 && t.st == 0) = true := by decide

/-- V102. -/
theorem test_ld_st_vx : gives (start.writeV 5 0x10) 0xF518 (fun t => t.st == 0x10 && t.dt == 0) = true := by decide

/-- V104, V105. -/
theorem test_skp : gives { start.writeV 0 4 with k := 0x20 } 0xE09E (fun t => t.pc == 0x202) = true ∧
    gives { start.writeV 0 0x15 with k := 0x20 } 0xE09E (fun t => t.pc == 0x204) = true := by decide

/-- V106, V107. -/
theorem test_sknp : gives { start.writeV 0 5 with k := 0x20 } 0xE0A1 (fun t => t.pc == 0x202) = true ∧
    gives { start.writeV 0 4 with k := 0x20 } 0xE0A1 (fun t => t.pc == 0x204) = true := by decide

/-- V112. -/
theorem test_ld_vx_k : gives { start with k := 0x0001 } 0xF30A
    (fun t => t.mode == .awaitingKey 3 && t.kp == 0x0001 && t.pc == 0x200 && t.out == ⟨false, true⟩) = true := by decide

/-- S1, step 3 (a held key) and its variant (the lowest of two new keys). -/
theorem test_wait_step :
    (match step { start with mode := .awaitingKey 3, k := 0x0001, kp := 0x0001 } with
      | .next t => t.mode == .awaitingKey 3 && t.out == ⟨false, true⟩
      | .fault _ => false
      | .refused _ => false) = true ∧
    (match step { start with mode := .awaitingKey 3, k := 0x0810 } with
      | .next t => t.mode == .running && t.readV 3 == 4 && t.pc == 0x202 && t.kp == 0x0810
      | .fault _ => false
      | .refused _ => false) = true := by decide

/-- V110: NN = 0 gives 0 whatever is drawn, and one value is drawn. -/
theorem test_rnd : ∃ t, step (holding (start.writeV 3 0x55) 0xC300) = .next t ∧ t.draws = 1 ∧ t.readV 3 = 0 := by
  refine ⟨_, rfl, rfl, ?_⟩
  show State.rnd _ &&& 0 = 0
  simp

/-! ### Display -/

/-- V120, V121: VF is not written. -/
theorem test_cls : gives { start.writeV vf 1 with fb := (start.fb.flip 0 0).flip 63 31 } 0x00E0
    (fun t => !t.fb.pixel 0 0 && !t.fb.pixel 63 31 && t.readV vf == 1 && t.out == ⟨true, false⟩) = true := by decide +kernel

/-- V122: wraps right and bottom. -/
theorem test_drw_wraps : gives { ((start.writeV 10 62).writeV 11 31).setBytes 0x20A [0xF0, 0x81] with i := 0x20A } 0xDAB2
    (fun t => t.readV vf == 0 && t.out == ⟨true, false⟩ && t.fb.pixel 62 31 && t.fb.pixel 63 31 && t.fb.pixel 0 31 &&
      t.fb.pixel 1 31 && !t.fb.pixel 2 31 && t.fb.pixel 62 0 && t.fb.pixel 5 0 && !t.fb.pixel 63 0) = true := by
  decide +kernel

/-- V123: a collision on the rightmost bit; V129: nothing drawn. -/
theorem test_drw_collides : gives { start.setBytes 0x300 [0xFF] with i := 0x300, fb := start.fb.flip 7 0 } 0xD011
      (fun t => t.readV vf == 1 && !t.fb.pixel 7 0 && t.fb.pixel 6 0 && t.fb.pixel 0 0) = true ∧
    raises { start with i := 0x0FFF } 0xD002 (.outOfBounds 0x1000) = true := by decide +kernel

/-! ### The host's transitions -/

/-- S2. -/
theorem test_tick : ({ start with dt := 2 }.tick).dt = 1 ∧ ({ start with dt := 255 }.tick).dt = 254 ∧ start.tick = start := by
  decide

/-- 70_reset_and_hazards.md R212, R214. -/
theorem test_reset_load :
    (match start.resetLoad [0x12, 0x34] with
      | .next t => t.byteAt 0x200 == 0x12 && t.byteAt 0x201 == 0x34 && t.byteAt 0x202 == 0 && t.byteAt 0x055 == 0x20 &&
          t.pc == 0x200 && Memory.wf t.params t.mem
      | .fault _ => false
      | .refused _ => false) = true := by decide

/-! ### Witnesses: each meets the hypotheses of the obligation it is named after -/

/-- The state that fetches NOP at 0x200 completes. -/
theorem start_steps : step start = .next start.advance := rfl

theorem start_inv : start.Inv := ⟨rfl, by decide, fun _ h => absurd h (Nat.not_lt_zero _), fun _ h => by cases h⟩

theorem witness_DecodeOfEncodeIsTheInstruction :
    (Instr.shl 15 15).wellFormed true = true ∧ (Instr.jp 0xFFF).wellFormed false = true := by decide

theorem witness_EncodeOfDecodeIsTheWord :
    decode false 0xFF65 = .ok (.ldVxMem 0xF) ∧ decode true 0x8FFE = .ok (.shl 0xF 0xF) := by decide

theorem witness_DecoderAcceptsExactlyTheOpcodeMap :
    (∃ r ∈ opcodeTable, r.enabled false = true ∧ r.accepts 0xF065 = true) ∧ decode false 0xF065 = .ok (.ldVxMem 0) := by
  decide

theorem witness_StepRunsTheDecodedInstruction :
    (holding { start with pc := 0xFFE } 0x60AB).mode = .running ∧
    (holding { start with pc := 0xFFE } 0x60AB).pc.toNat ≤ 0xFFE ∧
    decode false ((holding { start with pc := 0xFFE } 0x60AB).byteAt 0xFFE ++
      (holding { start with pc := 0xFFE } 0x60AB).byteAt 0xFFF) = .ok (.ldImm 0 0xAB) := by decide

theorem witness_PlacedInstructionIsRun :
    ({ start with pc := 0xFFE }).pc.toNat ≤ 0xFFE ∧ Memory.wf start.params start.mem = true := by decide

theorem witness_FetchIsBigEndianAndBounded :
    ({ start with pc := 0xFFE }).pc.toNat ≤ 0xFFE ∧
    (0xFFF ≤ ({ start with pc := 0xFFF }).pc.toNat ∧ ({ start with pc := 0xFFF }).mode = .running) ∧
    (0xFFF ≤ ({ start with pc := 0x1000 }).pc.toNat ∧ ({ start with pc := 0x1000 }).mode = .running) := by decide

theorem witness_ErrorRepeatsUntilResetLoad :
    step (holding start 0x00EE) = .fault .stackUnderflow ∧
    ∀ rom, Transition.resetLoad rom ∉ [Transition.step, .tick, .setKeys 0xFFFF] := by
  exact ⟨rfl, fun rom => by simp⟩

theorem witness_ErrorsAreReportedWithTheirCodes :
    (∃ t, step start = .next t) ∧ (∃ f, step (holding start 0x00EE) = .fault f) := ⟨⟨_, rfl⟩, ⟨_, rfl⟩⟩

theorem witness_EveryStepKeepsTheInvariant :
    start.Inv ∧ (∃ t, step start = .next t) ∧ (∃ d, transition (.resetLoad [0x12, 0x00]) start = .ok d) :=
  ⟨start_inv, ⟨_, rfl⟩, ⟨_, rfl⟩⟩

theorem witness_InstructionsChangeOnlyTheElementsTheyWrite :
    (∃ t, exec (.addReg 1 2) start = .next t) ∧ (∃ t, exec (.ldMemVx 0xF) { startExt with i := 0xFF0 } = .next t) ∧
    (∃ t, exec (.ldVxMem 0xF) { startExt with i := 0xFF0 } = .next t) ∧
    (∃ t, exec (.drw 0 0 0) { start with i := 0xFFFF } = .next t) ∧ (∃ t, exec (.addI 0xF) startExt = .next t) :=
  ⟨⟨_, rfl⟩, ⟨_, rfl⟩, ⟨_, rfl⟩, ⟨_, rfl⟩, ⟨_, rfl⟩⟩

theorem witness_InstructionsChangeOnlyTheirRegisters :
    (∃ t, exec (.addReg 0xF 1) start = .next t) ∧ ¬ writesReg start.params (.addReg 0xF 1) 1 = true :=
  ⟨⟨_, rfl⟩, by decide⟩

theorem witness_InstructionsChangeOnlyTheBytesTheyStore :
    (∃ t, exec (.ldB 0) { start with i := 0xFFD } = .next t) ∧ storeCount (.ldB 0) = 3 ∧
    (∃ t, exec .nop start = .next t) ∧ storeCount .nop = 0 := ⟨⟨_, rfl⟩, rfl, ⟨_, rfl⟩, rfl⟩

theorem witness_JpLoadsTheTarget : (0xFFF : Addr) = 0xFFF ∧ start.mode = .running := by decide

theorem witness_JpV0LoadsTheSumUnreduced :
    (0xFFF : Addr).toNat + ((start.writeV 0 0).readV 0).toNat > 0xFFE ∧
    (0xFFF : Addr).toNat + ((start.writeV 0 0xFF).readV 0).toNat > 0xFFE ∧ start.mode = .running := by decide

theorem witness_CallPushesTheNextAddress :
    ({ start with sp := 15 }).sp.val < 16 ∧ start.sp.val < 16 ∧ ({ start with sp := 16 }).sp.val = 16 := by decide

theorem witness_RetPopsTheTopEntry :
    ({ start with sp := 1 }).sp.val = (0 : Fin 16).val + 1 ∧ ({ start with sp := 16 }).sp.val = (15 : Fin 16).val + 1 ∧
    start.sp.val = 0 := by decide

theorem witness_CallThenRetComesBack :
    (∃ t, exec (.call 0x300) start = .next t) ∧ (∃ t, exec (.call 0xFFF) { start with sp := 15 } = .next t) :=
  ⟨⟨_, rfl⟩, ⟨_, rfl⟩⟩

/-- The hypothesis `x = y` of the two register skips, and `x ≠ vf` of the flag-writing statements
(AddSetsCarryLast, SubSetsNoBorrowLast, SubnSetsNoBorrowLast, ShrPutsTheLowBitInVf, ShlPutsTheHighBitInVf). -/
theorem witness_register_hypotheses : (∃ x y : Reg, x = y) ∧ (∃ x : Reg, x ≠ vf) := ⟨⟨0, 0, rfl⟩, ⟨14, by decide⟩⟩

theorem witness_RegisterEqualSkips : (15 : Reg) = 15 := rfl

theorem witness_RegisterUnequalSkips : (0 : Reg) = 0 := rfl

theorem witness_LogicActsBitwiseWithoutFlag : 0 < 8 ∧ 7 < 8 := by decide

theorem witness_AddSetsCarryLast : (14 : Reg) ≠ vf := by decide

theorem witness_SubSetsNoBorrowLast : (0 : Reg) ≠ vf := by decide

theorem witness_SubnSetsNoBorrowLast : (1 : Reg) ≠ vf := by decide

theorem witness_ShrPutsTheLowBitInVf : (2 : Reg) ≠ vf := by decide

theorem witness_ShlPutsTheHighBitInVf : (3 : Reg) ≠ vf := by decide

theorem witness_AddIWrapsAtSixteenBits : startExt.params.fx1eSetsVF = true := by decide

theorem witness_BcdStoresTheThreeDigits :
    Memory.wf start.params start.mem = true ∧ ({ start with i := 0xFFD }).i.toNat + 2 ≤ 0xFFF ∧
    ({ start with i := 0xFFE }).i.toNat + 2 > 0xFFF := by decide

theorem witness_BlockStoreWritesTheRegisters :
    Memory.wf start.params start.mem = true ∧ ({ start with i := 0xFF0 }).i.toNat + (15 : Reg).val ≤ 0xFFF ∧
    ({ start with i := 0xFF1 }).i.toNat + (15 : Reg).val > 0xFFF := by decide

theorem witness_BlockLoadReadsTheBytes :
    ({ start with i := 0xFFF }).i.toNat + (0 : Reg).val ≤ 0xFFF ∧
    ({ start with i := 0x1000 }).i.toNat + (0 : Reg).val > 0xFFF := by decide

theorem witness_BlockStoreThenLoadGivesTheRegistersBack :
    Memory.wf startExt.params startExt.mem = true ∧ ∃ t, exec (.ldMemVx 0xF) { startExt with i := 0xFF0 } = .next t :=
  ⟨rfl, ⟨_, rfl⟩⟩

theorem witness_StoreIsSeenByTheNextFetch :
    Memory.wf start.params start.mem = true ∧ 1 ≤ (1 : Reg).val ∧
    ({ start with i := 0x202 }).i.toNat = ({ start with i := 0x202 }).pc.toNat + 2 ∧
    ∃ t, exec (.ldMemVx 1) { start with i := 0x202 } = .next t := ⟨rfl, by decide, by decide, ⟨_, rfl⟩⟩

theorem witness_WaitEndsWithTheLowestNewKey :
    ({ start with mode := .awaitingKey 15, k := 0x8001, kp := 0x0001 }).mode = .awaitingKey 15 ∧
    ((0x8001 : Word).getLsbD (15 : Fin 16).val = true ∧ (0x0001 : Word).getLsbD (15 : Fin 16).val = false ∧
      ∀ m : Fin 16, m < 15 → ¬ ((0x8001 : Word).getLsbD m.val = true ∧ (0x0001 : Word).getLsbD m.val = false)) ∧
    (∀ n : Fin 16, ¬ ((0x0001 : Word).getLsbD n.val = true ∧ (0x0001 : Word).getLsbD n.val = false)) := by decide

theorem witness_DrwFlipsTheSpritePixels :
    ((0 : Fin 16).val = 0 ∨ ({ start with i := 0xFFFF }).i.toNat + (0 : Fin 16).val - 1 ≤ 0xFFF) ∧
    ((1 : Fin 16).val = 0 ∨ ({ start with i := 0xFFF }).i.toNat + (1 : Fin 16).val - 1 ≤ 0xFFF) ∧
    ((2 : Fin 16).val > 0 ∧ ({ start with i := 0xFFF }).i.toNat + (2 : Fin 16).val - 1 > 0xFFF) := by decide

/-- DRW V0, V1, 1 on a clear screen, VF being neither coordinate. -/
theorem witness_DrawingTwiceRestoresTheScreen :
    ∃ t, exec (.drw 0 1 1) { start with i := 0x050 } = .next t ∧ t.readV 0 = start.readV 0 ∧
      t.readV 1 = start.readV 1 := ⟨_, rfl, by decide, by decide⟩

theorem witness_ReturnedFlagsTellDrawingAndWaiting :
    (∃ t, step (holding start 0x00E0) = .next t) ∧ (∃ t, step { start with mode := .awaitingKey 3 } = .next t) :=
  ⟨⟨_, rfl⟩, ⟨_, rfl⟩⟩

theorem witness_SnapshotIsRowMajor : 63 < 64 ∧ 31 < 32 := by decide

theorem witness_ResetLoadMakesTheMemoryImage :
    (List.replicate 3584 (0x12 : Byte)).length ≤ 3584 ∧ 0xFFF ≤ 0xFFF := ⟨Nat.le_of_eq List.length_replicate, Nat.le_refl _⟩

theorem witness_ResetLoadGivesTheResetValues :
    ([] : List Byte).length ≤ 3584 ∧ (List.replicate 3585 (0x12 : Byte)).length > 3584 := ⟨Nat.zero_le _, Nat.le_of_eq List.length_replicate.symm⟩

theorem witness_WaitIsEnteredAndLeftOnlyAsTheRulesSay :
    (∃ d, transition .step (holding start 0xF30A) = .ok d ∧ d.state.mode = .awaitingKey 3 ∧
      (holding start 0xF30A).mode = .running) ∧
    (∃ d, transition .step { start with mode := .awaitingKey 3, k := 1 } = .ok d ∧ d.state.mode ≠ .awaitingKey 3) ∧
    (∃ d, transition (.resetLoad []) { start with mode := .awaitingKey 3 } = .ok d ∧
      d.state.mode ≠ .awaitingKey 3) :=
  ⟨⟨_, rfl, rfl, rfl⟩, ⟨_, rfl, by decide⟩, ⟨_, rfl, by decide⟩⟩

/-- An even and an odd pc, each running into its end. -/
theorem witness_ZeroedMemorySlidesToTheEnd :
    ({ start with pc := 0xFFC }).mode = .running ∧ ({ start with pc := 0xFFC }).pc.toNat + 2 * 2 ≤ 0x1000 ∧
    (∀ j, j < 2 * 2 → ({ start with pc := 0xFFC }).byteAt (({ start with pc := 0xFFC }).pc.toNat + j) = 0) ∧
    0xFFF ≤ ({ start with pc := 0xFFC }).pc.toNat + 2 * 2 ∧
    (∀ j, j < 2 * 1 → ({ start with pc := 0xFFD }).byteAt (({ start with pc := 0xFFD }).pc.toNat + j) = 0) ∧
    0xFFF ≤ ({ start with pc := 0xFFD }).pc.toNat + 2 * 1 := by decide

theorem witness_SelfJumpNeverChangesTheState :
    (holding start 0x1200).mode = .running ∧ (holding start 0x1200).pc.toNat ≤ 0xFFE ∧
    ((holding start 0x1200).wordAt (holding start 0x1200).pc.toNat).toNat = 0x1000 + (holding start 0x1200).pc.toNat ∧
    ((holding { start with pc := 0xFFE } 0x1FFE).wordAt 0xFFE).toNat = 0x1000 + 0xFFE := by decide

/-- Two states that differ in a dead entry only. -/
theorem witness_DeadStackEntriesAreUnobservable :
    LiveEq { start with sp := 3 } { start with sp := 3, stack := start.stack.set 3 0xABC } ∧
    (start.stack.set 3 0xABC)[3] ≠ start.stack[3] := by
  refine ⟨⟨rfl, ?_⟩, by decide⟩
  decide

theorem witness_InputsAreReadOnlyByTheirInstructions :
    (∀ x, Instr.nop ≠ .skp x ∧ Instr.nop ≠ .sknp x ∧ Instr.nop ≠ .ldVxK x) ∧
    (∀ x, Instr.nop ≠ .ldVxDt x ∧ Instr.nop ≠ .ldDtVx x) ∧ (∀ x, Instr.nop ≠ .ldStVx x) ∧
    (∀ x nn, Instr.nop ≠ .rnd x nn) := by simp

end Sys2Proof.Tests
end

section
/-! PROOFS. Frames of the instructions (10_state.md R20 to R22): one rule per element written, each instruction's frame
as a chain of such rules, and the frame of the registers. -/

namespace Sys2Proof.Machine

/-! ### One rule per element written -/

section
variable {c : List Elem} {s t : State}

theorem Frame.refl (s : State) : Frame [] s s := by
  intro e _
  cases e with
  | v => exact fun _ => rfl
  | mem => exact fun _ => rfl
  | _ => rfl

/-- A change of `t` that touches at most the element `e` adds `e` to the frame. -/
theorem Frame.cons {u : State} (h : Frame c s t) (e : Elem) (hu : ∀ e', e' ≠ e → e'.same s t → e'.same s u) :
    Frame (e :: c) s u :=
  fun e' he => hu e' (List.ne_of_not_mem_cons he) (h e' (List.not_mem_of_not_mem_cons he))

theorem Frame.mono {d : List Elem} (h : Frame c s t) (hcd : c ⊆ d) : Frame d s t :=
  fun e he => h e fun hc => he (hcd hc)

theorem Frame.setV (h : Frame c s t) (x : Vector Byte 16) : Frame (.v :: c) s { t with v := x } :=
  h.cons .v fun e hne hs => by cases e with | v => exact absurd rfl hne | _ => exact hs

theorem Frame.setI (h : Frame c s t) (w : Word) : Frame (.i :: c) s { t with i := w } :=
  h.cons .i fun e hne hs => by cases e with | i => exact absurd rfl hne | _ => exact hs

theorem Frame.setPc (h : Frame c s t) (w : Word) : Frame (.pc :: c) s { t with pc := w } :=
  h.cons .pc fun e hne hs => by cases e with | pc => exact absurd rfl hne | _ => exact hs

theorem Frame.setDt (h : Frame c s t) (b : Byte) : Frame (.dt :: c) s { t with dt := b } :=
  h.cons .dt fun e hne hs => by cases e with | dt => exact absurd rfl hne | _ => exact hs

theorem Frame.setSt (h : Frame c s t) (b : Byte) : Frame (.st :: c) s { t with st := b } :=
  h.cons .st fun e hne hs => by cases e with | st => exact absurd rfl hne | _ => exact hs

theorem Frame.setStack (h : Frame c s t) (x : Vector Word 16) : Frame (.stack :: c) s { t with stack := x } :=
  h.cons .stack fun e hne hs => by cases e with | stack => exact absurd rfl hne | _ => exact hs

theorem Frame.setSp (h : Frame c s t) (n : Fin 17) : Frame (.sp :: c) s { t with sp := n } :=
  h.cons .sp fun e hne hs => by cases e with | sp => exact absurd rfl hne | _ => exact hs

theorem Frame.setMem (h : Frame c s t) (m : Memory) : Frame (.mem :: c) s { t with mem := m } :=
  h.cons .mem fun e hne hs => by cases e with | mem => exact absurd rfl hne | _ => exact hs

theorem Frame.setFb (h : Frame c s t) (f : Framebuffer) : Frame (.fb :: c) s { t with fb := f } :=
  h.cons .fb fun e hne hs => by cases e with | fb => exact absurd rfl hne | _ => exact hs

theorem Frame.setMode (h : Frame c s t) (m : Mode) : Frame (.mode :: c) s { t with mode := m } :=
  h.cons .mode fun e hne hs => by cases e with | mode => exact absurd rfl hne | _ => exact hs

theorem Frame.setKp (h : Frame c s t) (w : Word) : Frame (.kp :: c) s { t with kp := w } :=
  h.cons .kp fun e hne hs => by cases e with | kp => exact absurd rfl hne | _ => exact hs

theorem Frame.setDraws (h : Frame c s t) (n : Nat) : Frame (.draws :: c) s { t with draws := n } :=
  h.cons .draws fun e hne hs => by cases e with | draws => exact absurd rfl hne | _ => exact hs

theorem Frame.setOut (h : Frame c s t) (o : StepFlags) : Frame (.out :: c) s { t with out := o } :=
  h.cons .out fun e hne hs => by cases e with | out => exact absurd rfl hne | _ => exact hs

/-- How every instruction ends: it writes pc and the returned flags (40_step_and_control_flow.md R90, R92). -/
theorem Frame.finish (h : Frame c s t) (w : Word) (o : StepFlags) :
    Frame (.pc :: .out :: c) s { t with pc := w, out := o } :=
  (h.setOut o).setPc w

theorem Frame.skipIf (h : Frame c s t) (b : Bool) : Frame (.pc :: .out :: c) s (t.skipIf b) := by
  cases b with
  | true => exact h.finish _ _
  | false => exact h.finish _ _

theorem Frame.writeVs (h : Frame c s t) (bytes : List Byte) : Frame (.v :: c) s (t.writeVs bytes) := h.setV _

theorem Frame.setBytes (h : Frame c s t) (a : Nat) (bytes : List Byte) :
    Frame (.mem :: c) s (t.setBytes a bytes) := by
  rw [setBytes_eq]
  exact h.setMem _

end

/-! ### What the checked operations of an instruction yield -/

theorem push_ok {s t : State} {w : Word} (h : s.push w = .ok t) :
    ∃ hs : s.sp.val < 16, t = { s with stack := s.stack.set s.sp.val w hs, sp := ⟨s.sp.val + 1, by omega⟩ } := by
  have hs : s.sp.val < 16 := by
    by_contra hfull
    rw [push_full (by omega)] at h
    cases h
  rw [push_room hs] at h
  exact ⟨hs, (Except.ok.inj h).symm⟩

theorem pop_ok {s t : State} {w : Word} (h : s.pop = .ok (w, t)) :
    ∃ hs : 0 < s.sp.val, w = s.stack[s.sp.val - 1] ∧ t = { s with sp := ⟨s.sp.val - 1, by omega⟩ } := by
  have hs : 0 < s.sp.val := by
    by_contra hempty
    rw [pop_empty (by omega)] at h
    cases h
  rw [pop_live hs] at h
  cases h
  exact ⟨hs, rfl, rfl⟩

theorem readSpan_ok {s : State} {a n : Nat} {bytes : List Byte} (h : s.readSpan a n = .ok bytes) :
    bytes.length = n := by
  rw [readSpan_eq] at h
  split at h
  · cases h
  · cases h
    simp

theorem writeSpan_ok {s t : State} {a : Nat} {bytes : List Byte} (h : s.writeSpan a bytes = .ok t) :
    t = s.setBytes a bytes ∧ (0 < bytes.length → a + bytes.length ≤ 0x1000) := by
  rw [writeSpan_eq] at h
  split at h
  · cases h
  · cases h
    exact ⟨rfl, by omega⟩

/-! ### The frame of an instruction -/

theorem frame_push {s t : State} {w : Word} (h : s.push w = .ok t) : Frame [.stack, .sp] s t := by
  obtain ⟨hs, rfl⟩ := push_ok h
  exact ((Frame.refl s).setSp ⟨s.sp.val + 1, by omega⟩).setStack (s.stack.set s.sp.val w hs)

theorem frame_pop {s t : State} {w : Word} (h : s.pop = .ok (w, t)) : Frame [.sp] s t := by
  obtain ⟨hs, -, rfl⟩ := pop_ok h
  exact (Frame.refl s).setSp _

/-- I, and VF under `FX1E_SETS_VF`, are all that `ADD I, Vx` writes (42_index_memory.md R131). -/
theorem frame_addToIndex (s : State) (q : Word × Bool) :
    Frame (if s.params.fx1eSetsVF then [.i, .v] else [.i]) s (s.addToIndex q) := by
  unfold State.addToIndex
  split
  · exact ((Frame.refl s).setV _).setI _
  · exact (Frame.refl s).setI _

/-- The post-increment adds I to the frame exactly under `MEM_INCREMENT_I` (42_index_memory.md R134, R135). -/
theorem Frame.bumpIndex {s t : State} {e : Elem} (h : Frame [e] s t) (hp : t.params = s.params) (x : Reg) :
    Frame (if s.params.memIncrementI then [e, .i] else [e]) s (t.bumpIndex x) := by
  unfold State.bumpIndex
  rw [hp]
  split
  · exact hp ▸ (h.setI _).mono (by simp)
  · exact h

@[simp] theorem mem_elems_ite {e a b : Elem} {q : Bool} :
    (e ∈ if q then [a, b] else [a]) ↔ e = a ∨ q = true ∧ e = b := by
  cases q <;> simp

theorem exec_frame {i : Instr} {s t : State} (h : exec i s = .next t) :
    Frame (.pc :: .out :: writtenElems s.params i) s t := by
  cases i with
  | nop | jp nnn | jpV0 nnn => cases h; exact (Frame.refl s).finish _ _
  | seImm x nn | sneImm x nn | seReg x y | sneReg x y | skp x | sknp x => cases h; exact (Frame.refl s).skipIf _
  | ldImm x nn | addImm x nn | ldReg x y | orReg x y | andReg x y | xorReg x y | ldVxDt x
  | addReg x y | subReg x y | shr x y | subnReg x y | shl x y => cases h; exact ((Frame.refl s).setV _).finish _ _
  | cls => cases h; exact ((Frame.refl s).setFb _).finish _ _
  | ldI nnn | ldF x => cases h; exact ((Frame.refl s).setI _).finish _ _
  | rnd x nn => cases h; exact (((Frame.refl s).setDraws _).setV _).finish _ _
  | ldVxK x => cases h; exact (((Frame.refl s).setKp s.k).setMode (.awaitingKey x)).finish s.pc waitingFlags
  | ldDtVx x => cases h; exact ((Frame.refl s).setDt _).finish _ _
  | ldStVx x => cases h; exact ((Frame.refl s).setSt _).finish _ _
  | addI x => cases h; exact (frame_addToIndex s _).finish _ _
  | ret =>
    obtain ⟨⟨w, u⟩, hpop, h⟩ := orRaise_next h
    cases h
    exact (frame_pop hpop).finish _ _
  | call nnn =>
    obtain ⟨u, hpush, h⟩ := orRaise_next h
    cases h
    exact (frame_push hpush).finish _ _
  | drw x y n =>
    obtain ⟨rows, -, h⟩ := orRaise_next h
    cases h
    exact (((Frame.refl s).setFb _).setV _).finish _ _
  | ldB x =>
    obtain ⟨u, hw, h⟩ := orRaise_next h
    obtain ⟨rfl, -⟩ := writeSpan_ok hw
    cases h
    exact ((Frame.refl s).setBytes _ _).finish _ _
  | ldMemVx x =>
    obtain ⟨u, hw, h⟩ := orRaise_next h
    obtain ⟨rfl, -⟩ := writeSpan_ok hw
    cases h
    exact (((Frame.refl s).setBytes _ _).bumpIndex (by simp) x).finish _ _
  | ldVxMem x =>
    obtain ⟨bytes, -, h⟩ := orRaise_next h
    cases h
    exact (((Frame.refl s).writeVs bytes).bumpIndex rfl x).finish _ _

/-! ### The registers an instruction changes -/

theorem exec_regsBut {i : Instr} {s t : State} (h : exec i s = .next t) :
    RegsBut (fun r => writesReg s.params i r = true) s t := by
  intro r hr
  cases i with
  | ldImm x | addImm x | ldReg x | orReg x | andReg x | xorReg x | ldVxDt x | rnd x =>
    have hx : r ≠ x := by simpa [writesReg] using hr
    cases h
    simp [hx]
  | addReg x | subReg x | shr x | subnReg x | shl x =>
    have hx : r ≠ x ∧ r ≠ vf := by simpa [writesReg] using hr
    cases h
    simp [hx]
  | drw x y n =>
    have hx : r ≠ vf := by simpa [writesReg] using hr
    obtain ⟨rows, -, h⟩ := orRaise_next h
    cases h
    simp [hx]
  | addI x =>
    have hx : ¬ (s.params.fx1eSetsVF = true ∧ r = vf) := by simpa [writesReg] using hr
    cases h
    simp [hx]
  | ldVxMem x =>
    have hx : x < r := by simpa [writesReg] using hr
    obtain ⟨bytes, hread, h⟩ := orRaise_next h
    have hlen : bytes.length ≤ r.val := by rw [readSpan_ok hread]; exact hx
    cases h
    simp [readV_writeVs, hlen]
  | _ => exact exec_frame h .v (by simp [writtenElems]) r

/-! ### The obligations -/

/-- Settles O16: each instruction is a chain of writes to its own elements. -/
theorem instructionsChangeOnlyTheElementsTheyWrite : Obligations.InstructionsChangeOnlyTheElementsTheyWrite :=
  fun _ _ _ => exec_frame

/-- Settles O17: the registers' own frame where the rule writes V, and the frame of the elements elsewhere. -/
theorem instructionsChangeOnlyTheirRegisters : Obligations.InstructionsChangeOnlyTheirRegisters :=
  fun _ _ _ => exec_regsBut

end Sys2Proof.Machine
end

section
/-! PROOFS. The invariant of every reachable state (10_state.md R25; 20_memory.md R50): what a step can do to pc, to the
stack and to the mode, and that `reset_load`, `step`, `tick` and `set_keys` keep the invariant. -/

namespace Sys2Proof.Machine

/-! ### What a step can do -/

theorem step_running {s : State} (h : s.mode = .running) : step s = orRaise s.fetchInstr (fun i => exec i s) := by
  simp only [step, h]

theorem step_awaiting {s : State} {x : Reg} (h : s.mode = .awaitingKey x) : step s = .next (s.waitStep x) := by
  simp only [step, h]

/-- An instruction is fetched only from two bytes of memory, so from a pc of at most 0xFFE (20_memory.md R53). -/
theorem pc_of_fetchInstr {s : State} {i : Instr} (h : s.fetchInstr = .ok i) : s.pc.toNat ≤ 0xFFE := by
  by_contra hpc
  rw [State.fetchInstr, fetchWord_eq, if_pos (by omega)] at h
  cases h

/-- A step that completes executed the instruction it fetched, or was a step of the wait
(40_step_and_control_flow.md R90, R91). -/
theorem step_next {s t : State} (h : step s = .next t) :
    (s.mode = .running ∧ ∃ i, s.fetchInstr = .ok i ∧ exec i s = .next t) ∨
      ∃ x, s.mode = .awaitingKey x ∧ t = s.waitStep x := by
  cases hm : s.mode with
  | running =>
    rw [step_running hm] at h
    exact .inl ⟨rfl, orRaise_next h⟩
  | awaitingKey x =>
    rw [step_awaiting hm] at h
    exact .inr ⟨x, rfl, (Host.Outcome.next.inj h).symm⟩

/-- A step of the wait ends it with some key or only takes the sample (43_timer_key_random.md R156). -/
theorem waitStep_cases (s : State) (x : Reg) :
    (∃ n, s.waitStep x = s.finishWait x n) ∨ s.waitStep x = { s with kp := s.k, out := waitingFlags } := by
  unfold State.waitStep
  split
  · exact .inl ⟨_, rfl⟩
  · exact .inr rfl

/-! ### pc and the stack after an instruction -/

theorem addrOperand_toNat (nnn : Addr) : (addrOperand nnn).toNat = nnn.toNat := by
  have := nnn.isLt
  simp only [addrOperand, BitVec.toNat_setWidth]
  omega

/-- Where an instruction that completes leaves pc (40_step_and_control_flow.md R92 to R101; 10_state.md R24). -/
theorem exec_pc {i : Instr} {s t : State} (h : exec i s = .next t) :
    t.pc = s.pc ∨ t.pc = s.pc + 2 ∨ t.pc = s.pc + 4 ∨ (∃ nnn, t.pc = addrOperand nnn) ∨
      (∃ nnn, t.pc = addrOperand nnn + (s.readV 0).setWidth 16) ∨
      ∃ j : Fin 16, j.val < s.sp.val ∧ t.pc = s.stack[j] := by
  cases i with
  | ldVxK x => cases h; exact .inl rfl
  | seImm x nn | sneImm x nn | seReg x y | sneReg x y | skp x | sknp x =>
    cases h
    rw [skipIf_pc]
    split
    · exact .inr (.inr (.inl rfl))
    · exact .inr (.inl rfl)
  | jp nnn => cases h; exact .inr (.inr (.inr (.inl ⟨nnn, rfl⟩)))
  | jpV0 nnn => cases h; exact .inr (.inr (.inr (.inr (.inl ⟨nnn, rfl⟩))))
  | call nnn =>
    obtain ⟨u, -, h⟩ := orRaise_next h
    cases h
    exact .inr (.inr (.inr (.inl ⟨nnn, rfl⟩)))
  | ret =>
    obtain ⟨⟨w, u⟩, hpop, h⟩ := orRaise_next h
    obtain ⟨hs, rfl, -⟩ := pop_ok hpop
    cases h
    have hj : s.sp.val - 1 < 16 := by omega
    exact .inr (.inr (.inr (.inr (.inr ⟨⟨s.sp.val - 1, hj⟩, Nat.sub_lt hs Nat.one_pos, rfl⟩))))
  | drw x y n | ldVxMem x =>
    obtain ⟨bytes, -, h⟩ := orRaise_next h
    cases h
    exact .inr (.inl (by simp))
  | ldB x | ldMemVx x =>
    obtain ⟨u, hw, h⟩ := orRaise_next h
    obtain ⟨rfl, -⟩ := writeSpan_ok hw
    cases h
    exact .inr (.inl (by simp))
  | addI x => cases h; exact .inr (.inl (by simp))
  | _ => cases h; exact .inr (.inl rfl)

/-- pc is at most 0x10FE after an instruction that was fetched, the last instruction being JP V0 to 0xFFF with V0 = 0xFF
(10_state.md R25). -/
theorem exec_pcBound {i : Instr} {s t : State} (h : exec i s = .next t) (hpc : s.pc.toNat ≤ 0xFFE)
    (hlive : ∀ j : Fin 16, j.val < s.sp.val → s.stack[j].toNat ≤ 0x1000) : t.pc.toNat ≤ 0x10FE := by
  rcases exec_pc h with e | e | e | ⟨nnn, e⟩ | ⟨nnn, e⟩ | ⟨j, hj, e⟩ <;> rw [e]
  · omega
  · bv_omega
  · bv_omega
  · have := nnn.isLt
    rw [addrOperand_toNat]
    omega
  · have := nnn.isLt
    have := (s.readV 0).isLt
    rw [BitVec.toNat_add, addrOperand_toNat, BitVec.toNat_setWidth]
    omega
  · exact (hlive j hj).trans (by decide)

/-- Only CALL and RET touch the stack (10_state.md R28). -/
theorem exec_sameStack {i : Instr} {s t : State} (h : exec i s = .next t) (hcall : ∀ nnn, i ≠ .call nnn)
    (hret : i ≠ .ret) : t.stack = s.stack ∧ t.sp = s.sp := by
  have hstack : .stack ∉ writtenElems s.params i := by
    cases i with
    | call nnn => exact absurd rfl (hcall nnn)
    | _ => simp [writtenElems]
  have hsp : .sp ∉ writtenElems s.params i := by
    cases i with
    | call nnn => exact absurd rfl (hcall nnn)
    | ret => exact absurd rfl hret
    | _ => simp [writtenElems]
  exact ⟨exec_frame h .stack (by simp [hstack]), exec_frame h .sp (by simp [hsp])⟩

/-- A live entry is at most 0x1000 after an instruction that was fetched: CALL pushes pc + 2, RET only uncovers fewer
entries (10_state.md R25). -/
theorem exec_liveBound {i : Instr} {s t : State} (h : exec i s = .next t) (hpc : s.pc.toNat ≤ 0xFFE)
    (hlive : ∀ j : Fin 16, j.val < s.sp.val → s.stack[j].toNat ≤ 0x1000) :
    ∀ j : Fin 16, j.val < t.sp.val → t.stack[j].toNat ≤ 0x1000 := by
  cases i with
  | call nnn =>
    obtain ⟨u, hpush, h⟩ := orRaise_next h
    obtain ⟨hs, rfl⟩ := push_ok hpush
    cases h
    intro j hj
    by_cases hjs : s.sp.val = j.val
    · have hnext : (s.pc + 2).toNat ≤ 0x1000 := by bv_omega
      simpa [hjs] using hnext
    · have hlt : j.val < s.sp.val := by
        have : j.val < s.sp.val + 1 := hj
        omega
      simpa [Vector.getElem_set_ne _ _ hjs] using hlive j hlt
  | ret =>
    obtain ⟨⟨w, u⟩, hpop, h⟩ := orRaise_next h
    obtain ⟨hs, -, rfl⟩ := pop_ok hpop
    cases h
    exact fun j hj => hlive j (Nat.lt_of_lt_of_le hj (Nat.sub_le _ _))
  | _ =>
    obtain ⟨hstack, hsp⟩ := exec_sameStack h (by simp) (by simp)
    rw [hstack, hsp]
    exact hlive

/-! ### Memory and the mode after an instruction -/

/-- Only LD B and LD [I] store, and only bytes of 0x000 to 0xFFF (20_memory.md R50, R58, R65). -/
theorem exec_memWf {i : Instr} {s t : State} (h : exec i s = .next t) (hwf : Memory.wf s.params s.mem = true) :
    Memory.wf t.params t.mem = true := by
  cases i with
  | ldB x | ldMemVx x =>
    obtain ⟨u, hw, h⟩ := orRaise_next h
    obtain ⟨rfl, hfit⟩ := writeSpan_ok hw
    cases h
    simpa using wf_setBytes hwf (hfit (by simp [decimalDigits]))
  | ret =>
    obtain ⟨⟨w, u⟩, hpop, h⟩ := orRaise_next h
    obtain ⟨hs, -, rfl⟩ := pop_ok hpop
    cases h
    exact hwf
  | call nnn =>
    obtain ⟨u, hpush, h⟩ := orRaise_next h
    obtain ⟨hs, rfl⟩ := push_ok hpush
    cases h
    exact hwf
  | drw x y n | ldVxMem x =>
    obtain ⟨bytes, -, h⟩ := orRaise_next h
    cases h
    simpa using hwf
  | seImm x nn | sneImm x nn | seReg x y | sneReg x y | skp x | sknp x | addI x =>
    cases h
    simpa using hwf
  | _ => cases h; exact hwf

/-- The mode changes only where pc does not: in LD Vx, K (43_timer_key_random.md R155). -/
theorem exec_mode {i : Instr} {s t : State} (h : exec i s = .next t) : t.mode = s.mode ∨ t.pc = s.pc := by
  cases i with
  | ldVxK x => cases h; exact .inr rfl
  | _ => exact .inl (exec_frame h .mode (by simp [writtenElems]))

/-! ### The invariant through each transition -/

theorem exec_inv {i : Instr} {s t : State} (h : exec i s = .next t) (hs : s.Inv) (hrun : s.mode = .running)
    (hpc : s.pc.toNat ≤ 0xFFE) : t.Inv where
  memWf := exec_memWf h hs.memWf
  pcBound := exec_pcBound h hpc hs.liveBound
  liveBound := exec_liveBound h hpc hs.liveBound
  waitBound x hx := by
    rcases exec_mode h with hm | hp
    · rw [hm, hrun] at hx
      cases hx
    · exact hp ▸ hpc

/-- During a wait pc is at most 0xFFE, so the end of the wait leaves it at most 0x1000. -/
theorem waitStep_inv {s : State} {x : Reg} (hs : s.Inv) (hx : s.mode = .awaitingKey x) : (s.waitStep x).Inv := by
  have hpc := hs.waitBound x hx
  rcases waitStep_cases s x with ⟨n, e⟩ | e <;> rw [e]
  · have hpc' : (s.pc + 2).toNat ≤ 0x10FE := by bv_omega
    exact ⟨hs.memWf, hpc', hs.liveBound, fun _ h => nomatch h⟩
  · exact ⟨hs.memWf, hs.pcBound, hs.liveBound, hs.waitBound⟩

theorem step_inv {s t : State} (hs : s.Inv) (h : step s = .next t) : t.Inv := by
  rcases step_next h with ⟨hrun, i, hi, h⟩ | ⟨x, hx, rfl⟩
  · exact exec_inv h hs hrun (pc_of_fetchInstr hi)
  · exact waitStep_inv hs hx

theorem initial_inv (p : Params) (n : Nat) : (State.initial p n).Inv where
  memWf := wf_reset p n
  pcBound := (by decide : (0x200 : Word).toNat ≤ 0x10FE)
  liveBound _ h := absurd h (Nat.not_lt_zero _)
  waitBound _ h := nomatch h

/-- `reset_load` gives the initial state with nothing but memory changed (70_reset_and_hazards.md R210). -/
theorem loaded_eq (s : State) (rom : List Byte) :
    s.loaded rom = { State.initial s.params s.draws with mem := (s.loaded rom).mem } := setBytes_eq _ _ _

/-- A ROM that is accepted fits between 0x200 and 0xFFF (70_reset_and_hazards.md R210, R214). -/
theorem loaded_memWf (s : State) {rom : List Byte} (h : rom.length ≤ 3584) :
    Memory.wf (s.loaded rom).params (s.loaded rom).mem = true :=
  wf_setBytes (wf_reset s.params s.draws) (by simp only [Config.progBase]; omega)

theorem loaded_inv (s : State) {rom : List Byte} (h : rom.length ≤ 3584) : (s.loaded rom).Inv := by
  have hi := initial_inv s.params s.draws
  have hwf := loaded_memWf s h
  rw [loaded_eq] at hwf ⊢
  exact ⟨hwf, hi.pcBound, hi.liveBound, hi.waitBound⟩

/-- What `reset_load` answers: it refuses exactly a ROM of more than 3584 bytes (70_reset_and_hazards.md R214). -/
theorem resetLoad_accepts (s : State) {rom : List Byte} (h : rom.length ≤ 3584) :
    s.resetLoad rom = .next (s.loaded rom) := if_pos h

theorem resetLoad_refuses (s : State) {rom : List Byte} (h : 3584 < rom.length) :
    s.resetLoad rom = .refused (.oversizedRom rom.length) := if_neg (Nat.not_le.mpr h)

theorem hostLoad_inv {s : State} {rom : List Byte} {d : Driven} (h : hostLoad s rom = .ok d) : d.state.Inv := by
  by_cases hrom : rom.length ≤ 3584
  · rw [hostLoad, resetLoad_accepts s hrom] at h
    cases h
    exact loaded_inv s hrom
  · rw [hostLoad, resetLoad_refuses s (by omega)] at h
    cases h

theorem hostStep_inv {s : State} {d : Driven} (hs : s.Inv) (h : hostStep s = .ok d) : d.state.Inv := by
  unfold hostStep at h
  split at h
  · cases h
    exact step_inv hs ‹_›
  · cases h
    exact hs
  · cases h

theorem transition_inv {s : State} {tr : Transition} {d : Driven} (hs : s.Inv) (h : transition tr s = .ok d) :
    d.state.Inv := by
  cases tr with
  | resetLoad rom => exact hostLoad_inv h
  | step => exact hostStep_inv hs h
  | tick => cases h; exact ⟨hs.memWf, hs.pcBound, hs.liveBound, hs.waitBound⟩
  | setKeys keys => cases h; exact ⟨hs.memWf, hs.pcBound, hs.liveBound, hs.waitBound⟩

/-! ### The obligations -/

/-- Settles O14: at the recommended parameters, as at any others. -/
theorem invariantHoldsAtReset : Obligations.InvariantHoldsAtReset := initial_inv Config.params 0

/-- Settles O15: the step by cases of Running and AwaitingKey, and each transition of the host. -/
theorem everyStepKeepsTheInvariant : Obligations.EveryStepKeepsTheInvariant :=
  fun _ hs => ⟨fun _ => step_inv hs, fun _ _ => transition_inv hs⟩

/-- Settles O55: `reset_load` answers the initial state with the ROM in memory. -/
theorem resetLoadGivesTheResetValues : Obligations.ResetLoadGivesTheResetValues := by
  intro s rom
  refine ⟨fun h => ⟨s.loaded rom, resetLoad_accepts s h, ?_⟩, resetLoad_refuses s⟩
  have hwf := loaded_memWf s h
  have hreg : ∀ r : Reg, (Vector.replicate 16 (0 : Byte))[r] = 0 := fun r => Vector.getElem_replicate r.isLt
  have hstack : ∀ j : Fin 16, (Vector.replicate 16 (0 : Word))[j] = 0 := fun j => Vector.getElem_replicate j.isLt
  rw [loaded_eq] at hwf ⊢
  exact ⟨hreg, rfl, rfl, rfl, rfl, rfl, hstack, pixel_blank, rfl, rfl, rfl, rfl, rfl, hwf⟩

end Sys2Proof.Machine
end

section
/-! PROOFS. What an instruction does not read (10_state.md R26 to R28, R33; 43_timer_key_random.md R158, R159): a change
of an element that it does not access goes through it unseen. -/

namespace Sys2Proof.Machine

/-- A change, from outside, of one element that only a few instructions access: K, a timer, the count of `rnd` samples,
or the stack's entries. -/
inductive Poke where
  | k (w : Word)
  | dt (b : Byte)
  | st (b : Byte)
  | draws (n : Nat)
  | stack (x : Vector Word 16)

/-- The state after the change. -/
def State.poke (s : State) : Poke → State
  | .k w => s.setKeys w
  | .dt b => { s with dt := b }
  | .st b => { s with st := b }
  | .draws n => { s with draws := n }
  | .stack x => { s with stack := x }

/-- The instruction neither reads nor writes the element that is changed. -/
def Poke.Avoids : Poke → Instr → Prop
  | .k _, i => ∀ x, i ≠ .skp x ∧ i ≠ .sknp x ∧ i ≠ .ldVxK x
  | .dt _, i => ∀ x, i ≠ .ldVxDt x ∧ i ≠ .ldDtVx x
  | .st _, i => ∀ x, i ≠ .ldStVx x
  | .draws _, i => ∀ x nn, i ≠ .rnd x nn
  | .stack _, i => (∀ nnn, i ≠ .call nnn) ∧ i ≠ .ret

/-! ### The operations -/

section
variable (s : State) (p : Poke)

@[simp] theorem readV_poke (x : Reg) : (s.poke p).readV x = s.readV x := by cases p <;> rfl
@[simp] theorem readVs_poke (x : Reg) : (s.poke p).readVs x = s.readVs x := by cases p <;> rfl
@[simp] theorem poke_pc : (s.poke p).pc = s.pc := by cases p <;> rfl
@[simp] theorem poke_sp : (s.poke p).sp = s.sp := by cases p <;> rfl
@[simp] theorem poke_params : (s.poke p).params = s.params := by cases p <;> rfl
@[simp] theorem poke_i : (s.poke p).i = s.i := by cases p <;> rfl
@[simp] theorem poke_fb : (s.poke p).fb = s.fb := by cases p <;> rfl
@[simp] theorem dataBase_poke : (s.poke p).dataBase = s.dataBase := by cases p <;> rfl
@[simp] theorem readSpan_poke (a n : Nat) : (s.poke p).readSpan a n = s.readSpan a n := by cases p <;> rfl
@[simp] theorem fetchInstr_poke : (s.poke p).fetchInstr = s.fetchInstr := by cases p <;> rfl

@[simp] theorem jumpTo_poke (w : Word) : (s.poke p).jumpTo w = (s.jumpTo w).poke p := by cases p <;> rfl
@[simp] theorem advance_poke : (s.poke p).advance = s.advance.poke p := by cases p <;> rfl
@[simp] theorem advanceDrawn_poke : (s.poke p).advanceDrawn = s.advanceDrawn.poke p := by cases p <;> rfl
@[simp] theorem skipIf_poke (c : Bool) : (s.poke p).skipIf c = (s.skipIf c).poke p := by cases c <;> cases p <;> rfl
@[simp] theorem writeVs_poke (bytes : List Byte) : (s.poke p).writeVs bytes = (s.writeVs bytes).poke p := by
  cases p <;> rfl
@[simp] theorem putCanvas_poke (c : Canvas) : (s.poke p).putCanvas c = (s.putCanvas c).poke p := by cases p <;> rfl

@[simp] theorem addToIndex_poke (q : Word × Bool) : (s.poke p).addToIndex q = (s.addToIndex q).poke p := by
  unfold State.addToIndex
  rw [poke_params]
  split <;> cases p <;> rfl

@[simp] theorem bumpIndex_poke (x : Reg) : (s.poke p).bumpIndex x = (s.bumpIndex x).poke p := by
  unfold State.bumpIndex
  rw [poke_params]
  split <;> cases p <;> rfl

theorem setBytes_poke (a : Nat) (bytes : List Byte) : (s.poke p).setBytes a bytes = (s.setBytes a bytes).poke p := by
  induction bytes generalizing s a with
  | nil => rfl
  | cons b rest ih =>
    have hset : (s.poke p).setByte a b = (s.setByte a b).poke p := by cases p <;> rfl
    simp only [State.setBytes, hset, ih]

theorem writeSpan_poke (a : Nat) (bytes : List Byte) :
    (s.poke p).writeSpan a bytes = (s.writeSpan a bytes).map (fun t => t.poke p) := by
  rw [writeSpan_eq, writeSpan_eq, setBytes_poke]
  split <;> rfl

theorem push_poke (hp : ∀ x, p ≠ .stack x) (w : Word) : (s.poke p).push w = (s.push w).map (fun t => t.poke p) := by
  have hsp := poke_sp s p
  by_cases hs : s.sp.val = 16
  · rw [push_full hs, push_full (hsp ▸ hs)]
    rfl
  · have hroom : s.sp.val < 16 := by omega
    rw [push_room hroom, push_room (hsp ▸ hroom)]
    cases p with
    | stack x => exact absurd rfl (hp x)
    | _ => rfl

theorem pop_poke (hp : ∀ x, p ≠ .stack x) :
    (s.poke p).pop = s.pop.map (fun q => (q.1, q.2.poke p)) := by
  have hsp := poke_sp s p
  by_cases hs : s.sp.val = 0
  · rw [pop_empty hs, pop_empty (hsp ▸ hs)]
    rfl
  · have hlive : 0 < s.sp.val := by omega
    rw [pop_live hlive, pop_live (hsp ▸ hlive)]
    cases p with
    | stack x => exact absurd rfl (hp x)
    | _ => rfl

end

/-- A checked operation with the same answer, followed by what commutes with the change `f`. -/
theorem orRaise_mapState {α : Type} {f : State → State} {r : Except Fault α} {go go' : α → Result}
    (h : ∀ a, go' a = mapState f (go a)) : orRaise r go' = mapState f (orRaise r go) := by
  cases r with
  | ok a => exact h a
  | error e => rfl

/-- A checked operation whose value carries the change, followed by what commutes with it. -/
theorem orRaise_map {α : Type} {f : State → State} {g : α → α} {r : Except Fault α} {go go' : α → Result}
    (h : ∀ a, go' (g a) = mapState f (go a)) : orRaise (r.map g) go' = mapState f (orRaise r go) := by
  cases r with
  | ok a => exact h a
  | error e => rfl

/-! ### The instructions -/

/-- An instruction that avoids the element acts alike before and after the change, and leaves the change in place. -/
theorem exec_poke {i : Instr} (s : State) {p : Poke} (h : p.Avoids i) :
    exec i (s.poke p) = mapState (fun t => t.poke p) (exec i s) := by
  cases i with
  | seImm x nn | sneImm x nn | seReg x y | sneReg x y =>
    simp [exec, execSeImm, execSneImm, execSeReg, execSneReg, mapState]
  | skp x | sknp x =>
    have hk : (s.poke p).k = s.k := by
      cases p with
      | k w =>
        obtain ⟨hskp, hsknp, -⟩ := h x
        contradiction
      | _ => rfl
    simp [exec, execSkp, execSknp, mapState, hk]
  | ldVxK x =>
    cases p with
    | k w => exact absurd rfl (h x).2.2
    | _ => rfl
  | ldVxDt x =>
    cases p with
    | dt b => exact absurd rfl (h x).1
    | _ => rfl
  | ldDtVx x =>
    cases p with
    | dt b => exact absurd rfl (h x).2
    | _ => rfl
  | ldStVx x =>
    cases p with
    | st b => exact absurd rfl (h x)
    | _ => rfl
  | rnd x nn =>
    cases p with
    | draws n => exact absurd rfl (h x nn)
    | _ => rfl
  | call nnn =>
    have hp : ∀ x, p ≠ .stack x := by
      rintro x rfl
      exact h.1 nnn rfl
    simp only [exec, execCall, push_poke s p hp, poke_pc]
    exact orRaise_map fun t => by simp [mapState]
  | ret =>
    have hp : ∀ x, p ≠ .stack x := by
      rintro x rfl
      exact h.2 rfl
    simp only [exec, execRet, pop_poke s p hp]
    exact orRaise_map fun q => by simp [mapState]
  | addI x => simp [exec, execAddI, mapState]
  | drw x y n =>
    simp only [exec, execDrw, readSpan_poke, dataBase_poke]
    exact orRaise_mapState fun rows => by simp [mapState]
  | ldVxMem x =>
    simp only [exec, execLdVxMem, readSpan_poke, dataBase_poke]
    exact orRaise_mapState fun bytes => by simp [mapState]
  | ldB x =>
    simp only [exec, execLdB, writeSpan_poke, dataBase_poke, readV_poke]
    exact orRaise_map fun t => by simp [mapState]
  | ldMemVx x =>
    simp only [exec, execLdMemVx, writeSpan_poke, dataBase_poke, readVs_poke]
    exact orRaise_map fun t => by simp [mapState]
  | _ => cases p <;> rfl

/-- Settles O60: a change of K, of a timer or of the count of samples goes through every instruction that avoids it. -/
theorem inputsAreReadOnlyByTheirInstructions : Obligations.InputsAreReadOnlyByTheirInstructions :=
  fun _ s => ⟨fun keys h => exec_poke s (p := .k keys) h, fun b h => exec_poke s (p := .dt b) h, fun _ _ => rfl,
    fun b h => exec_poke s (p := .st b) h, fun _ _ => rfl, fun n h => exec_poke s (p := .draws n) h⟩

/-! ### Dead stack entries -/

/-- `x` holds the live entries of `s`, those below SP (10_state.md R28). -/
def LiveIn (s : State) (x : Vector Word 16) : Prop := ∀ j : Fin 16, j.val < s.sp.val → s.stack[j] = x[j]

/-- Two states agree but for dead entries when one is the other with entries that hold its live ones. -/
theorem liveEq_iff {s t : State} : LiveEq s t ↔ t = s.poke (.stack t.stack) ∧ LiveIn s t.stack :=
  and_congr_left' eq_comm

/-- A state with the depth and the entries of `s` agrees with its own change but for dead entries. -/
theorem LiveIn.liveEq {s u : State} {x : Vector Word 16} (h : LiveIn s x) (hu : u.stack = s.stack ∧ u.sp = s.sp) :
    LiveEq u (u.poke (.stack x)) := by
  obtain ⟨hstack, hsp⟩ := hu
  refine liveEq_iff.mpr ⟨rfl, fun j hj => ?_⟩
  rw [hstack]
  exact h j (hsp ▸ hj)

theorem liveEqResult_mapState {r : Result} {f : State → State} (h : ∀ u, r = .next u → LiveEq u (f u)) :
    LiveEqResult r (mapState f r) := by
  cases r with
  | next u => exact h u rfl
  | fault e => rfl
  | refused q => rfl

/-- CALL pushes the same entry at the same depth, so it is live and the same in both states. -/
theorem execCall_liveEq {s : State} {x : Vector Word 16} (h : LiveIn s x) (nnn : Addr) :
    LiveEqResult (execCall nnn s) (execCall nnn (s.poke (.stack x))) := by
  by_cases hs : s.sp.val = 16
  · rw [execCall, execCall, push_full hs, push_full (s := s.poke (.stack x)) hs]
    rfl
  · have hroom : s.sp.val < 16 := by omega
    rw [execCall, execCall, push_room hroom, push_room (s := s.poke (.stack x)) hroom]
    refine liveEq_iff.mpr ⟨rfl, fun j hj => ?_⟩
    have hle : j.val < s.sp.val + 1 := hj
    change (s.stack.set s.sp.val (s.pc + 2))[j] = (x.set s.sp.val (s.pc + 2))[j]
    simp only [Fin.getElem_fin, Vector.getElem_set]
    split
    · rfl
    · exact h j (by omega)

/-- RET pops an entry that is live, so the same in both states. -/
theorem execRet_liveEq {s : State} {x : Vector Word 16} (h : LiveIn s x) :
    LiveEqResult (execRet s) (execRet (s.poke (.stack x))) := by
  by_cases hs : s.sp.val = 0
  · rw [execRet, execRet, pop_empty hs, pop_empty (s := s.poke (.stack x)) hs]
    rfl
  · have hpos : 0 < s.sp.val := by omega
    have htop : (s.poke (.stack x)).stack[(s.poke (.stack x)).sp.val - 1] = s.stack[s.sp.val - 1] :=
      (h ⟨s.sp.val - 1, by omega⟩ (Nat.sub_lt hpos Nat.one_pos)).symm
    rw [execRet, execRet, pop_live hpos, pop_live (s := s.poke (.stack x)) hpos, htop]
    exact liveEq_iff.mpr ⟨rfl, fun j hj => h j (Nat.lt_of_lt_of_le hj (Nat.sub_le _ _))⟩

theorem exec_liveEq {i : Instr} {s : State} {x : Vector Word 16} (h : LiveIn s x) :
    LiveEqResult (exec i s) (exec i (s.poke (.stack x))) := by
  by_cases hcall : ∃ nnn, i = .call nnn
  · obtain ⟨nnn, rfl⟩ := hcall
    exact execCall_liveEq h nnn
  by_cases hret : i = .ret
  · subst hret
    exact execRet_liveEq h
  have hcall' : ∀ nnn, i ≠ .call nnn := fun nnn e => hcall ⟨nnn, e⟩
  rw [exec_poke s (p := .stack x) ⟨hcall', hret⟩]
  exact liveEqResult_mapState fun u hu => h.liveEq (exec_sameStack hu hcall' hret)

theorem waitStep_poke_stack (s : State) (x : Reg) (y : Vector Word 16) :
    (s.poke (.stack y)).waitStep x = (s.waitStep x).poke (.stack y) := by
  have hkeys : newKeys (s.poke (.stack y)).k (s.poke (.stack y)).kp = newKeys s.k s.kp := rfl
  unfold State.waitStep
  rw [hkeys]
  split <;> rfl

theorem waitStep_sameStack (s : State) (x : Reg) : (s.waitStep x).stack = s.stack ∧ (s.waitStep x).sp = s.sp := by
  rcases waitStep_cases s x with ⟨n, e⟩ | e <;> rw [e] <;> exact ⟨rfl, rfl⟩

theorem step_liveEq {s : State} {x : Vector Word 16} (h : LiveIn s x) :
    LiveEqResult (step s) (step (s.poke (.stack x))) := by
  cases hm : s.mode with
  | running =>
    rw [step_running hm, step_running (s := s.poke (.stack x)) hm, fetchInstr_poke]
    cases s.fetchInstr with
    | ok i => exact exec_liveEq h
    | error f => rfl
  | awaitingKey r =>
    rw [step_awaiting hm, step_awaiting (s := s.poke (.stack x)) hm, waitStep_poke_stack]
    exact h.liveEq (waitStep_sameStack s r)

/-- Settles O59: no step reads a dead entry, CALL and RET touching live ones alone. -/
theorem deadStackEntriesAreUnobservable : Obligations.DeadStackEntriesAreUnobservable := by
  intro s t h
  obtain ⟨ht, hlive⟩ := liveEq_iff.mp h
  rw [ht]
  exact step_liveEq hlive

end Sys2Proof.Machine
end

section
/-! PROOFS. The framebuffer as it is read out (44_display.md R174; 60_exceptions.md R196). -/

namespace Sys2Proof.Machine

theorem snapshot_eq_flatten (s : State) : s.snapshot = s.fb.flatten.toList := by
  simp [State.snapshot, Vector.flatten, Vector.toList, List.flatMap, Function.comp_def]

/-- Pixel y * 64 + x of the row-major order is column x of row y. -/
theorem flatten_getElem (fb : Framebuffer) {x y : Nat} (hx : x < 64) (hy : y < 32) :
    fb.flatten[y * 64 + x]'(by omega) = fb.pixel x y := by
  have hrow : (y * 64 + x) / 64 = y := by omega
  have hcol : (y * 64 + x) % 64 = x := by omega
  simp only [Vector.getElem_flatten, Framebuffer.pixel, hrow, hcol, Nat.mod_eq_of_lt hx, Nat.mod_eq_of_lt hy]

/-- Settles O52: the snapshot is the flattened framebuffer, and p = y * 64 + x has quotient y and rest x by 64. -/
theorem snapshotIsRowMajor : Obligations.SnapshotIsRowMajor := by
  intro s
  rw [snapshot_eq_flatten]
  refine ⟨by simp, fun x y hx hy => ⟨?_, ?_⟩⟩
  · rw [← flatten_getElem s.fb hx hy]
    simp
  · have hp : (BitVec.ofNat 11 (y * 64 + x)).toNat = y * 64 + x := Nat.mod_eq_of_lt (by omega)
    rw [State.fbData, hp]
    exact pixel_mod s.fb (by omega) (by omega)

end Sys2Proof.Machine
end

section
/-! PROOFS. Memory (20_memory.md): the fetch reads two bytes high byte first (R53), an instruction changes only the bytes
it stores (R56, R65), and what a block store wrote is what the next load or fetch reads (R59, R61). -/

namespace Sys2Proof.Machine

/-! ### The fetch -/

theorem toNat_wordAt (s : State) (a : Nat) :
    (s.wordAt a).toNat = (s.byteAt a).toNat * 256 + (s.byteAt (a + 1)).toNat :=
  toNat_append _ _

theorem fetchWord_of_le {s : State} (h : s.pc.toNat ≤ 0xFFE) : s.fetchWord = .ok (s.wordAt s.pc.toNat) := by
  rw [fetchWord_eq, if_neg (by omega)]

/-- A fetch that fails is the fault of the step, whatever the decoder would say (60_exceptions.md R187). -/
theorem step_of_fetch_error {s : State} {f : Fault} (hrun : s.mode = .running) (h : s.fetchWord = .error f) :
    step s = .fault f := by
  have hfetch : s.fetchInstr = .error f := by simp only [State.fetchInstr, h]
  rw [step_running hrun, hfetch, orRaise_error]

/-- Settles O8: the bounds check of two bytes at pc fails exactly from 0xFFF on, and reports the first address
out of range. -/
theorem fetchIsBigEndianAndBounded : Obligations.FetchIsBigEndianAndBounded := by
  intro s
  refine ⟨fun h => ⟨s.wordAt s.pc.toNat, fetchWord_of_le h, toNat_wordAt s _⟩, fun h hrun => ?_⟩
  have hfirst : max s.pc.toNat 0x1000 = if s.pc.toNat = 0xFFF then s.pc.toNat + 1 else s.pc.toNat := by
    split <;> omega
  rw [← hfirst]
  exact step_of_fetch_error hrun (by rw [fetchWord_eq, if_pos h])

/-! ### The bytes an instruction stores -/

theorem byteAt_bumpIndex (s : State) (x : Reg) (a : Nat) : (s.bumpIndex x).byteAt a = s.byteAt a :=
  byteAt_congr (by simp) (by simp) a

theorem byteAt_advance (s : State) (a : Nat) : s.advance.byteAt a = s.byteAt a := rfl

/-- LD [I], Vx completes only if the block fits in memory (42_index_memory.md R134). -/
theorem execLdMemVx_next {x : Reg} {s t : State} (h : exec (.ldMemVx x) s = .next t) :
    t = ((s.setBytes s.dataBase (s.readVs x)).bumpIndex x).advance ∧ s.dataBase + (x.val + 1) ≤ 0x1000 := by
  obtain ⟨u, hw, h⟩ := orRaise_next h
  obtain ⟨rfl, hfit⟩ := writeSpan_ok hw
  rw [readVs_length] at hfit
  exact ⟨(Host.Outcome.next.inj h).symm, hfit (Nat.succ_pos _)⟩

theorem exec_bytesOutside {i : Instr} {s t : State} (h : exec i s = .next t) :
    BytesOutside s.dataBase (storeCount i) s t := by
  intro a ha
  cases i with
  | ldB x =>
    obtain ⟨u, hw, h⟩ := orRaise_next h
    obtain ⟨rfl, -⟩ := writeSpan_ok hw
    cases h
    rw [byteAt_advance]
    exact byteAt_setBytes_outside s _ _ ha
  | ldMemVx x =>
    obtain ⟨rfl, -⟩ := execLdMemVx_next h
    rw [byteAt_advance, byteAt_bumpIndex]
    exact byteAt_setBytes_outside s _ _ (by rwa [readVs_length])
  | _ => exact exec_frame h .mem (by simp [writtenElems]) a

/-- Settles O18: the two stores by what `setBytes` leaves alone, every other instruction by its frame; where nothing is
stored no address lies inside. -/
theorem instructionsChangeOnlyTheBytesTheyStore : Obligations.InstructionsChangeOnlyTheBytesTheyStore := by
  intro i s t h
  refine ⟨exec_bytesOutside h, fun hzero a => exec_bytesOutside h a ?_⟩
  omega

/-! ### A block store and the reads that follow it -/

/-- LD Vx, [I] completes if the block lies in memory (42_index_memory.md R135). -/
theorem execLdVxMem_of_fits {x : Reg} {s : State} (h : s.dataBase + (x.val + 1) ≤ 0x1000) :
    exec (.ldVxMem x) s =
      .next ((s.writeVs ((List.range (x.val + 1)).map fun r => s.byteAt (s.dataBase + r))).bumpIndex x).advance := by
  simp only [exec, execLdVxMem]
  rw [readSpan_eq, if_neg (by omega), orRaise_ok]

/-- A block store puts V[r] at I + r (20_memory.md R56). -/
theorem byteAt_of_execLdMemVx {x r : Reg} {s t : State} (hwf : Memory.wf s.params s.mem = true)
    (h : exec (.ldMemVx x) s = .next t) (hr : r ≤ x) : t.byteAt (s.dataBase + r.val) = s.readV r := by
  obtain ⟨rfl, hfit⟩ := execLdMemVx_next h
  have hrx : r.val ≤ x.val := hr
  have hlen := readVs_length s x
  rw [byteAt_advance, byteAt_bumpIndex, byteAt_setBytes hwf (by omega), if_pos (by omega), Nat.add_sub_cancel_left,
    readVs_getD s x r hr]

/-- A block load puts the byte at I + r in V[r] (42_index_memory.md R135). -/
theorem readV_of_execLdVxMem {x r : Reg} {s t : State} (h : exec (.ldVxMem x) s = .next t) (hr : r ≤ x) :
    t.readV r = s.byteAt (s.dataBase + r.val) := by
  obtain ⟨bytes, hread, h⟩ := orRaise_next h
  have hrx : r.val < x.val + 1 := Nat.lt_succ_of_le hr
  rw [readSpan_eq] at hread
  split at hread
  · cases hread
  · cases hread
    cases h
    simp [readV_writeVs, hrx]

/-- Settles O41: the load at the same I fits as the store did and reads the bytes that the store put there. -/
theorem blockStoreThenLoadGivesTheRegistersBack : Obligations.BlockStoreThenLoadGivesTheRegistersBack := by
  intro x s t v hwf hstore
  obtain ⟨-, hfit⟩ := execLdMemVx_next hstore
  have hload := execLdVxMem_of_fits (s := { t with i := s.i, v := v }) hfit
  refine ⟨_, hload, fun r hr => ?_⟩
  have hstored : t.byteAt (s.dataBase + r.val) = s.readV r := byteAt_of_execLdMemVx hwf hstore hr
  exact (readV_of_execLdVxMem hload hr).trans hstored

/-- Settles O42: pc is I after the store, and both bytes that the fetch reads there were stored. -/
theorem storeIsSeenByTheNextFetch : Obligations.StoreIsSeenByTheNextFetch := by
  intro x s t hwf hx hi hstore
  obtain ⟨ht, hfit⟩ := execLdMemVx_next hstore
  have hbase : s.dataBase = s.pc.toNat + 2 := hi
  have hpc : t.pc.toNat = s.dataBase := by
    have hadv : t.pc = s.pc + 2 := by simp [ht]
    rw [hadv]
    bv_omega
  have hfirst : t.byteAt s.dataBase = s.readV 0 := byteAt_of_execLdMemVx (r := 0) hwf hstore (Fin.zero_le x)
  have hsecond : t.byteAt (s.dataBase + 1) = s.readV 1 := byteAt_of_execLdMemVx (r := 1) hwf hstore hx
  rw [fetchWord_of_le (by omega), State.wordAt, hpc, hfirst, hsecond]

end Sys2Proof.Machine
end

section
/-! PROOFS. Encoding (30_encoding.md): the encoder and the decoder undo each other (R71 to R74), the decoder accepts what
the rows of the opcode map accept (R73, R74), and the words it rejects are those of R75 and R76. -/

namespace Sys2Proof

/-! ### The fields of a word in each format -/

@[simp] theorem fieldOp_encodeA (op : BitVec 4) (nnn : Addr) : fieldOp (encodeA op nnn) = op := by
  apply BitVec.eq_of_toNat_eq
  rw [fieldOp_toNat, encodeA_toNat]
  omega

@[simp] theorem fieldNNN_encodeA (op : BitVec 4) (nnn : Addr) : fieldNNN (encodeA op nnn) = nnn := by
  apply BitVec.eq_of_toNat_eq
  rw [fieldNNN_toNat, encodeA_toNat]
  omega

@[simp] theorem fieldOp_encodeRI (op : BitVec 4) (x : Reg) (nn : Byte) : fieldOp (encodeRI op x nn) = op := by
  apply BitVec.eq_of_toNat_eq
  rw [fieldOp_toNat, encodeRI_toNat]
  omega

@[simp] theorem fieldX_encodeRI (op : BitVec 4) (x : Reg) (nn : Byte) : fieldX (encodeRI op x nn) = x := by
  apply Fin.ext
  rw [fieldX_val, encodeRI_toNat]
  omega

@[simp] theorem fieldNN_encodeRI (op : BitVec 4) (x : Reg) (nn : Byte) : fieldNN (encodeRI op x nn) = nn := by
  apply BitVec.eq_of_toNat_eq
  rw [fieldNN_toNat, encodeRI_toNat]
  omega

@[simp] theorem fieldOp_encodeRR (op : BitVec 4) (x y : Reg) (n : BitVec 4) : fieldOp (encodeRR op x y n) = op := by
  apply BitVec.eq_of_toNat_eq
  rw [fieldOp_toNat, encodeRR_toNat]
  omega

@[simp] theorem fieldX_encodeRR (op : BitVec 4) (x y : Reg) (n : BitVec 4) : fieldX (encodeRR op x y n) = x := by
  apply Fin.ext
  rw [fieldX_val, encodeRR_toNat]
  omega

@[simp] theorem fieldY_encodeRR (op : BitVec 4) (x y : Reg) (n : BitVec 4) : fieldY (encodeRR op x y n) = y := by
  apply Fin.ext
  rw [fieldY_val, encodeRR_toNat]
  omega

@[simp] theorem fieldN_encodeRR (op : BitVec 4) (x y : Reg) (n : BitVec 4) : fieldN (encodeRR op x y n) = n.toFin := by
  apply Fin.ext
  rw [fieldN_val, encodeRR_toNat]
  have hn : n.toFin.val = n.toNat := rfl
  omega

/-! ### A word from its fields -/

theorem encodeA_of_fields {w : Word} {op : BitVec 4} (hop : (fieldOp w).toNat = op.toNat) :
    encodeA op (fieldNNN w) = w := by
  apply BitVec.eq_of_toNat_eq
  rw [fieldOp_toNat] at hop
  rw [encodeA_toNat, fieldNNN_toNat]
  omega

theorem encodeRI_of_fields {w : Word} {op : BitVec 4} {nn : Byte} (hop : (fieldOp w).toNat = op.toNat)
    (hnn : (fieldNN w).toNat = nn.toNat) : encodeRI op (fieldX w) nn = w := by
  apply BitVec.eq_of_toNat_eq
  rw [fieldOp_toNat] at hop
  rw [fieldNN_toNat] at hnn
  rw [encodeRI_toNat, fieldX_val]
  omega

theorem encodeRR_of_fields {w : Word} {op n : BitVec 4} (hop : (fieldOp w).toNat = op.toNat)
    (hn : (fieldN w).val = n.toNat) : encodeRR op (fieldX w) (fieldY w) n = w := by
  apply BitVec.eq_of_toNat_eq
  rw [fieldOp_toNat] at hop
  rw [fieldN_val] at hn
  rw [encodeRR_toNat, fieldX_val, fieldY_val]
  omega

theorem highByte_append_lowByte (w : Word) : highByte w ++ lowByte w = w := by
  apply BitVec.eq_of_toNat_eq
  have hhigh : (highByte w).toNat = w.toNat / 256 := by
    simp only [highByte, BitVec.extractLsb'_toNat, Nat.shiftRight_eq_div_pow]
    omega
  have hlow : (lowByte w).toNat = w.toNat % 256 := fieldNN_toNat w
  rw [toNat_append, hhigh, hlow]
  omega

/-! ### Decoding an encoding -/

/-- An operand of any value comes back: OP and the function code select the arm, and the fields are the operands. -/
theorem decode_encode {ext : Bool} {i : Instr} (hwf : i.wellFormed ext = true) : decode ext (encode i) = .ok i := by
  cases i with
  | nop | cls | ret => rfl
  | jp nnn | call nnn | ldI nnn | jpV0 nnn => simp [encode, decode]
  | seImm x nn | sneImm x nn | ldImm x nn | addImm x nn | rnd x nn => simp [encode, decode]
  | seReg x y | sneReg x y | drw x y n => simp [encode, decode]
  | ldReg x y | orReg x y | andReg x y | xorReg x y | addReg x y | subReg x y | shr x y | subnReg x y =>
    simp [encode, decode, decodeAlu]
  | shl x y =>
    have hext : ext = true := hwf
    simp [encode, decode, decodeAlu, hext]
  | skp x | sknp x => simp [encode, decode, decodeKey]
  | ldVxDt x | ldVxK x | ldDtVx x | ldStVx x | addI x | ldF x | ldB x | ldMemVx x | ldVxMem x =>
    simp [encode, decode, decodeMisc]

/-- Settles O1: on the word by the fields of its format, on the bytes because they put the word together again. -/
theorem decodeOfEncodeIsTheInstruction : Obligations.DecodeOfEncodeIsTheInstruction := by
  intro ext i hwf
  refine ⟨decode_encode hwf, fun rest => ?_⟩
  simp [encodeBytes, decodeBytes, highByte_append_lowByte, decode_encode hwf]

/-! ### Encoding what was decoded -/

/-- `i` is an instruction of the machine whose word is `w`. -/
def IsInstrOf (ext : Bool) (w : Word) (i : Instr) : Prop := encode i = w ∧ i.wellFormed ext = true

theorem decodeExact_ok {ext : Bool} {w : Word} {i : Instr} (h : decodeExact w = .ok i) : IsInstrOf ext w i := by
  unfold decodeExact at h
  split_ifs at h with hnop hcls hret
  · cases h; exact ⟨hnop.symm, rfl⟩
  · cases h; exact ⟨hcls.symm, rfl⟩
  · cases h; exact ⟨hret.symm, rfl⟩

theorem decodeAlu_ok {ext : Bool} {w : Word} {i : Instr} (hop : (fieldOp w).toNat = 8) (h : decodeAlu ext w = .ok i) :
    IsInstrOf ext w i := by
  unfold decodeAlu at h
  split at h
  case h_9 hn =>
    split_ifs at h with hext
    cases h
    exact ⟨encodeRR_of_fields hop hn, hext⟩
  case h_10 => cases h
  all_goals
    next hn =>
      cases h
      exact ⟨encodeRR_of_fields hop hn, rfl⟩

theorem decodeKey_ok {ext : Bool} {w : Word} {i : Instr} (hop : (fieldOp w).toNat = 14) (h : decodeKey w = .ok i) :
    IsInstrOf ext w i := by
  unfold decodeKey at h
  split at h
  case h_3 => cases h
  all_goals
    next hnn =>
      cases h
      exact ⟨encodeRI_of_fields hop hnn, rfl⟩

theorem decodeMisc_ok {ext : Bool} {w : Word} {i : Instr} (hop : (fieldOp w).toNat = 15) (h : decodeMisc w = .ok i) :
    IsInstrOf ext w i := by
  unfold decodeMisc at h
  split at h
  case h_10 => cases h
  all_goals
    next hnn =>
      cases h
      exact ⟨encodeRI_of_fields hop hnn, rfl⟩

/-- What a word decodes to is an instruction whose word it is: the operands are the word's fields, the rest of the word is
OP and the function code. -/
theorem decode_ok {ext : Bool} {w : Word} {i : Instr} (h : decode ext w = .ok i) : IsInstrOf ext w i := by
  unfold decode at h
  split at h
  case h_1 => exact decodeExact_ok h
  case h_9 hop => exact decodeAlu_ok hop h
  case h_15 hop => exact decodeKey_ok hop h
  case h_16 =>
    have hop : (fieldOp w).toNat = 15 := by
      simp only [imp_false] at *
      omega
    exact decodeMisc_ok hop h
  case h_6 hop | h_10 hop =>
    split_ifs at h with hn
    cases h
    exact ⟨encodeRR_of_fields hop (congrArg Fin.val hn), rfl⟩
  case h_14 hop => cases h; exact ⟨encodeRR_of_fields hop rfl, rfl⟩
  case h_2 hop | h_3 hop | h_11 hop | h_12 hop => cases h; exact ⟨encodeA_of_fields hop, rfl⟩
  case h_4 hop | h_5 hop | h_7 hop | h_8 hop | h_13 hop => cases h; exact ⟨encodeRI_of_fields hop rfl, rfl⟩

/-- Settles O2: each arm of the decoder puts the word's fields where the encoder's format has them. -/
theorem encodeOfDecodeIsTheWord : Obligations.EncodeOfDecodeIsTheWord := fun _ _ _ h => decode_ok h

/-! ### The rows of the opcode map -/

/-- The row that `i` is numbered by accepts the word of `i`. -/
theorem row_accepts_encode : ∀ i : Instr, Laws.RowMatch.Statement i
  | .nop => Laws.RowMatch.nop
  | .cls => Laws.RowMatch.cls
  | .ret => Laws.RowMatch.ret
  | .jp nnn => Laws.RowMatch.jp nnn
  | .call nnn => Laws.RowMatch.call nnn
  | .seImm x nn => Laws.RowMatch.seImm x nn
  | .sneImm x nn => Laws.RowMatch.sneImm x nn
  | .seReg x y => Laws.RowMatch.seReg x y
  | .ldImm x nn => Laws.RowMatch.ldImm x nn
  | .addImm x nn => Laws.RowMatch.addImm x nn
  | .ldReg x y => Laws.RowMatch.ldReg x y
  | .orReg x y => Laws.RowMatch.orReg x y
  | .andReg x y => Laws.RowMatch.andReg x y
  | .xorReg x y => Laws.RowMatch.xorReg x y
  | .addReg x y => Laws.RowMatch.addReg x y
  | .subReg x y => Laws.RowMatch.subReg x y
  | .shr x y => Laws.RowMatch.shr x y
  | .subnReg x y => Laws.RowMatch.subnReg x y
  | .shl x y => Laws.RowMatch.shl x y
  | .sneReg x y => Laws.RowMatch.sneReg x y
  | .ldI nnn => Laws.RowMatch.ldI nnn
  | .jpV0 nnn => Laws.RowMatch.jpV0 nnn
  | .rnd x nn => Laws.RowMatch.rnd x nn
  | .drw x y n => Laws.RowMatch.drw x y n
  | .skp x => Laws.RowMatch.skp x
  | .sknp x => Laws.RowMatch.sknp x
  | .ldVxDt x => Laws.RowMatch.ldVxDt x
  | .ldVxK x => Laws.RowMatch.ldVxK x
  | .ldDtVx x => Laws.RowMatch.ldDtVx x
  | .ldStVx x => Laws.RowMatch.ldStVx x
  | .addI x => Laws.RowMatch.addI x
  | .ldF x => Laws.RowMatch.ldF x
  | .ldB x => Laws.RowMatch.ldB x
  | .ldMemVx x => Laws.RowMatch.ldMemVx x
  | .ldVxMem x => Laws.RowMatch.ldVxMem x

/-- A row is in force exactly when its instructions are well formed: both single out SHL (30_encoding.md R76). -/
theorem enabled_of_row {ext : Bool} {i : Instr} {r : OpcodeRow} (h : opcodeTable[i.rowNumber - 1]? = some r) :
    r.enabled ext = i.wellFormed ext := by
  cases i with
  | shl x y => cases h; exact Bool.or_false ext
  | _ => cases h; exact Bool.or_true ext

/-- A row of mask 0xF000 fixes OP alone. -/
theorem op_of_accepts {w : Word} {r : OpcodeRow} {op : BitVec 4} (hm : r.mask = 0xF000)
    (hv : r.value.toNat = op.toNat * 4096) (h : r.accepts w = true) : (fieldOp w).toNat = op.toNat := by
  simp only [OpcodeRow.accepts, hm, beq_iff_eq] at h
  have heq := and_F000 w
  rw [h, hv] at heq
  rw [fieldOp_toNat]
  omega

/-- A row of mask 0xF00F fixes OP and N. -/
theorem op_n_of_accepts {w : Word} {r : OpcodeRow} {op n : BitVec 4} (hm : r.mask = 0xF00F)
    (hv : r.value.toNat = op.toNat * 4096 + n.toNat) (h : r.accepts w = true) :
    (fieldOp w).toNat = op.toNat ∧ (fieldN w).val = n.toNat := by
  simp only [OpcodeRow.accepts, hm, beq_iff_eq] at h
  have heq := and_F00F w
  rw [h, hv] at heq
  rw [fieldOp_toNat, fieldN_val]
  omega

/-- A row of mask 0xF0FF fixes OP and NN. -/
theorem op_nn_of_accepts {w : Word} {r : OpcodeRow} {op : BitVec 4} {nn : Byte} (hm : r.mask = 0xF0FF)
    (hv : r.value.toNat = op.toNat * 4096 + nn.toNat) (h : r.accepts w = true) :
    (fieldOp w).toNat = op.toNat ∧ (fieldNN w).toNat = nn.toNat := by
  simp only [OpcodeRow.accepts, hm, beq_iff_eq] at h
  have heq := and_F0FF w
  rw [h, hv] at heq
  rw [fieldOp_toNat, fieldNN_toNat]
  omega

/-- Every word that the row accepts is the word of an instruction that is numbered by that row. -/
def Covered (r : OpcodeRow) : Prop :=
  ∀ w : Word, r.accepts w = true → ∃ i, encode i = w ∧ opcodeTable[i.rowNumber - 1]? = some r

/-- A row of mask 0xFFFF accepts one word. -/
theorem covered_of_oneWord (i : Instr) {r : OpcodeRow} (hm : r.mask = 0xFFFF := by rfl)
    (hi : encode i = r.value := by rfl) (hr : opcodeTable[i.rowNumber - 1]? = some r := by rfl) : Covered r := by
  intro w h
  simp only [OpcodeRow.accepts, hm, and_FFFF, beq_iff_eq] at h
  exact ⟨i, hi.trans h.symm, hr⟩

/-- A row of format A: `c` is its instruction with the operand NNN. -/
theorem covered_of_formatA (c : Addr → Instr) (op : BitVec 4) {r : OpcodeRow} (hm : r.mask = 0xF000 := by rfl)
    (hv : r.value.toNat = op.toNat * 4096 := by rfl)
    (hi : ∀ nnn, encode (c nnn) = encodeA op nnn := by intros; rfl)
    (hr : ∀ nnn, opcodeTable[(c nnn).rowNumber - 1]? = some r := by intros; rfl) : Covered r :=
  fun w h => ⟨c (fieldNNN w), (hi _).trans (encodeA_of_fields (op_of_accepts hm hv h)), hr _⟩

/-- A row of format RI: `c` is its instruction with the operands X and NN. -/
theorem covered_of_formatRI (c : Reg → Byte → Instr) (op : BitVec 4) {r : OpcodeRow} (hm : r.mask = 0xF000 := by rfl)
    (hv : r.value.toNat = op.toNat * 4096 := by rfl)
    (hi : ∀ x nn, encode (c x nn) = encodeRI op x nn := by intros; rfl)
    (hr : ∀ x nn, opcodeTable[(c x nn).rowNumber - 1]? = some r := by intros; rfl) : Covered r :=
  fun w h => ⟨c (fieldX w) (fieldNN w), (hi _ _).trans (encodeRI_of_fields (op_of_accepts hm hv h) rfl), hr _ _⟩

/-- A row of format R: `c` is its instruction with the operand X, and NN is its function code. -/
theorem covered_of_formatR (c : Reg → Instr) (op : BitVec 4) (nn : Byte) {r : OpcodeRow} (hm : r.mask = 0xF0FF := by rfl)
    (hv : r.value.toNat = op.toNat * 4096 + nn.toNat := by rfl)
    (hi : ∀ x, encode (c x) = encodeRI op x nn := by intros; rfl)
    (hr : ∀ x, opcodeTable[(c x).rowNumber - 1]? = some r := by intros; rfl) : Covered r := by
  intro w h
  obtain ⟨hop, hnn⟩ := op_nn_of_accepts hm hv h
  exact ⟨c (fieldX w), (hi _).trans (encodeRI_of_fields hop hnn), hr _⟩

/-- A row of format RR: `c` is its instruction with the operands X and Y, and N is its function code. -/
theorem covered_of_formatRR (c : Reg → Reg → Instr) (op n : BitVec 4) {r : OpcodeRow} (hm : r.mask = 0xF00F := by rfl)
    (hv : r.value.toNat = op.toNat * 4096 + n.toNat := by rfl)
    (hi : ∀ x y, encode (c x y) = encodeRR op x y n := by intros; rfl)
    (hr : ∀ x y, opcodeTable[(c x y).rowNumber - 1]? = some r := by intros; rfl) : Covered r := by
  intro w h
  obtain ⟨hop, hn⟩ := op_n_of_accepts hm hv h
  exact ⟨c (fieldX w) (fieldY w), (hi _ _).trans (encodeRR_of_fields hop hn), hr _ _⟩

/-- A row of format RRN: `c` is its instruction with the operands X, Y and N. -/
theorem covered_of_formatRRN (c : Reg → Reg → Fin 16 → Instr) (op : BitVec 4) {r : OpcodeRow} (hm : r.mask = 0xF000 := by rfl)
    (hv : r.value.toNat = op.toNat * 4096 := by rfl)
    (hi : ∀ x y n, encode (c x y n) = encodeRR op x y (BitVec.ofFin n) := by intros; rfl)
    (hr : ∀ x y n, opcodeTable[(c x y n).rowNumber - 1]? = some r := by intros; rfl) : Covered r :=
  fun w h => ⟨c (fieldX w) (fieldY w) (fieldN w),
    (hi _ _ _).trans (encodeRR_of_fields (op_of_accepts hm hv h) rfl), hr _ _ _⟩

theorem covered_of_mem_opcodeRowsA : ∀ r ∈ opcodeRowsA, Covered r := by
  simp only [opcodeRowsA, List.forall_mem_cons]
  refine ⟨covered_of_oneWord .nop,
    covered_of_oneWord .cls,
    covered_of_oneWord .ret,
    covered_of_formatA .jp 0x1,
    covered_of_formatA .call 0x2,
    covered_of_formatRI .seImm 0x3,
    covered_of_formatRI .sneImm 0x4,
    covered_of_formatRR .seReg 0x5 0x0,
    covered_of_formatRI .ldImm 0x6,
    covered_of_formatRI .addImm 0x7,
    covered_of_formatRR .ldReg 0x8 0x0,
    covered_of_formatRR .orReg 0x8 0x1,
    covered_of_formatRR .andReg 0x8 0x2,
    covered_of_formatRR .xorReg 0x8 0x3,
    covered_of_formatRR .addReg 0x8 0x4,
    covered_of_formatRR .subReg 0x8 0x5,
    covered_of_formatRR .shr 0x8 0x6,
    covered_of_formatRR .subnReg 0x8 0x7, ?_⟩
  exact List.forall_mem_nil _

theorem covered_of_mem_opcodeRowsBC : ∀ r ∈ opcodeRowsBC, Covered r := by
  simp only [opcodeRowsBC, List.forall_mem_cons]
  refine ⟨covered_of_formatRR .shl 0x8 0xE,
    covered_of_formatRR .sneReg 0x9 0x0,
    covered_of_formatA .ldI 0xA,
    covered_of_formatA .jpV0 0xB,
    covered_of_formatRI .rnd 0xC,
    covered_of_formatRRN .drw 0xD,
    covered_of_formatR .skp 0xE 0x9E,
    covered_of_formatR .sknp 0xE 0xA1,
    covered_of_formatR .ldVxDt 0xF 0x07,
    covered_of_formatR .ldVxK 0xF 0x0A,
    covered_of_formatR .ldDtVx 0xF 0x15,
    covered_of_formatR .ldStVx 0xF 0x18,
    covered_of_formatR .addI 0xF 0x1E,
    covered_of_formatR .ldF 0xF 0x29,
    covered_of_formatR .ldB 0xF 0x33,
    covered_of_formatR .ldMemVx 0xF 0x55,
    covered_of_formatR .ldVxMem 0xF 0x65, ?_⟩
  exact List.forall_mem_nil _

/-- Every word that a row accepts is the word of an instruction of that row. -/
theorem covered_of_mem_opcodeTable {r : OpcodeRow} (h : r ∈ opcodeTable) : Covered r := by
  rcases List.mem_append.mp h with hA | hBC
  · exact covered_of_mem_opcodeRowsA r hA
  · exact covered_of_mem_opcodeRowsBC r hBC

theorem wellFormed_true (i : Instr) : i.wellFormed true = true := by
  cases i <;> rfl

/-- Two instructions with one word are one instruction: the machine with every row decodes that word to both. -/
theorem encode_injective : Function.Injective encode := by
  intro i j h
  have hi := decode_encode (wellFormed_true i)
  rw [h, decode_encode (wellFormed_true j)] at hi
  exact (Except.ok.inj hi).symm

/-- Settles O3: a row accepts exactly the words of its instructions, and no two instructions share a word. -/
theorem decoderAcceptsExactlyTheOpcodeMap : Obligations.DecoderAcceptsExactlyTheOpcodeMap := by
  intro ext w
  have hrow : ∀ i, decode ext w = .ok i →
      ∃ r, opcodeTable[i.rowNumber - 1]? = some r ∧ r.enabled ext = true ∧ r.accepts w = true := by
    intro i h
    obtain ⟨rfl, hwf⟩ := decode_ok h
    obtain ⟨r, hr, hacc⟩ := row_accepts_encode i
    exact ⟨r, hr, (enabled_of_row hr).trans hwf, hacc⟩
  refine ⟨⟨?_, ?_⟩, ?_, fun i h => ?_⟩
  · rintro ⟨i, h⟩
    obtain ⟨r, hr, hen, hacc⟩ := hrow i h
    exact ⟨r, List.mem_of_getElem? hr, hen, hacc⟩
  · rintro ⟨r, hmem, hen, hacc⟩
    obtain ⟨i, rfl, hr⟩ := covered_of_mem_opcodeTable hmem w hacc
    exact ⟨i, decode_encode ((enabled_of_row hr).symm.trans hen)⟩
  · intro r hr q hq haccr haccq
    obtain ⟨i, hi, hir⟩ := covered_of_mem_opcodeTable hr w haccr
    obtain ⟨j, hj, hjq⟩ := covered_of_mem_opcodeTable hq w haccq
    obtain rfl := encode_injective (hi.trans hj.symm)
    exact Option.some.inj (hir.symm.trans hjq)
  · obtain ⟨r, hr, -, hacc⟩ := hrow i h
    exact ⟨r, hr, hacc⟩

/-! ### The words that are no instruction -/

theorem decodeExact_error_iff {w : Word} :
    (∃ r, decodeExact w = .error r) ↔ w ≠ 0x0000 ∧ w ≠ 0x00E0 ∧ w ≠ 0x00EE := by
  unfold decodeExact
  split_ifs <;> simp_all

theorem decodeAlu_error_iff {ext : Bool} {w : Word} :
    (∃ r, decodeAlu ext w = .error r) ↔
      (fieldN w).val ∈ [0x8, 0x9, 0xA, 0xB, 0xC, 0xD, 0xF] ∨ ((fieldN w).val = 0xE ∧ ext = false) := by
  unfold decodeAlu
  split
  case h_9 hn => cases ext <;> simp [hn]
  case h_10 =>
    have hlt := (fieldN w).isLt
    simp only [imp_false] at *
    refine iff_of_true ⟨_, rfl⟩ (.inl ?_)
    simp only [List.mem_cons, List.not_mem_nil, or_false]
    omega
  all_goals
    next hn => simp [hn]

theorem decodeKey_error_iff {w : Word} : (∃ r, decodeKey w = .error r) ↔ (fieldNN w).toNat ∉ [0x9E, 0xA1] := by
  unfold decodeKey
  split
  case h_3 => simp_all
  all_goals
    next hnn => simp [hnn]

theorem decodeMisc_error_iff {w : Word} :
    (∃ r, decodeMisc w = .error r) ↔ (fieldNN w).toNat ∉ [0x07, 0x0A, 0x15, 0x18, 0x1E, 0x29, 0x33, 0x55, 0x65] := by
  unfold decodeMisc
  split
  case h_10 => simp_all
  all_goals
    next hnn => simp [hnn]

/-- Settles O4: OP selects one line of the list or none, and the function code decides within it. -/
theorem invalidWordsAreExactlyTheListedOnes : Obligations.InvalidWordsAreExactlyTheListedOnes := by
  intro ext w
  rw [← fieldOp_toNat, ← fieldN_val, ← fieldNN_toNat]
  unfold decode
  split
  case h_1 hop => simp [hop, decodeExact_error_iff]
  case h_9 hop => simp [hop, decodeAlu_error_iff]
  case h_15 hop => simp [hop, decodeKey_error_iff]
  case h_16 =>
    have hop : (fieldOp w).toNat = 15 := by
      simp only [imp_false] at *
      omega
    simp [hop, decodeMisc_error_iff]
  case h_6 hop | h_10 hop => split_ifs with hn <;> simp [hop, hn]
  all_goals
    next hop => simp [hop]

/-- Settles O5: the decoder evaluated on each word. -/
theorem sampleWordsDecodeAsTheMapSays : Obligations.SampleWordsDecodeAsTheMapSays :=
  ⟨rfl, rfl, rfl, rfl, rfl, rfl, rfl, rfl, rfl, rfl⟩

end Sys2Proof
end

section
/-! PROOFS. The step and control flow (40_step_and_control_flow.md): a step runs the instruction its fetch reads (R90),
a word placed at pc is that instruction, the jumps, calls and skips (R93 to R99), the end of the wait for a key (R91;
43_timer_key_random.md R156), and what a step that completes returns. -/

namespace Sys2Proof.Machine

/-! ### The step and what it fetches -/

theorem step_of_decode {s : State} {i : Instr} (hrun : s.mode = .running) (hpc : s.pc.toNat ≤ 0xFFE)
    (h : decode s.params.extShl (s.wordAt s.pc.toNat) = .ok i) : step s = exec i s := by
  have hfetch : s.fetchInstr = .ok i := by simp only [State.fetchInstr, fetchWord_of_le hpc, State.decodeWord, h]
  rw [step_running hrun, hfetch, orRaise_ok]

/-- Settles O6: the fetch succeeds up to 0xFFE and its word is the two bytes at pc, the high byte first. -/
theorem stepRunsTheDecodedInstruction : Obligations.StepRunsTheDecodedInstruction := fun _ _ => step_of_decode

/-- A Running step whose pc is above 0xFFE faults at its fetch, wherever the pc came from. -/
theorem step_outOfBounds_of_pc {s : State} (hrun : s.mode = .running) (h : 0xFFF ≤ s.pc.toNat) :
    ∃ a, step s = .fault (.outOfBounds a) :=
  ⟨_, (fetchIsBigEndianAndBounded s).2 h hrun⟩

/-! ### A word placed where the machine fetches (log 24) -/

theorem tableWord_toNat (w : Word) : tableWord 16 w.toNat = w := by
  apply BitVec.eq_of_toNat_eq
  have := w.isLt
  simp only [tableWord, BitVec.toNat_ofNat]
  omega

theorem withFetchWord_eq {s : State} (hpc : s.pc.toNat ≤ 0xFFE) (w : Word) :
    s.withFetchWord 16 w.toNat = (s.setBytes s.pc.toNat [highByte w, lowByte w]).readyFor w := by
  have hfits : s.writeSpan s.pc.toNat [highByte w, lowByte w] =
      .ok (s.setBytes s.pc.toNat [highByte w, lowByte w]) := by
    rw [writeSpan_eq, if_neg]
    simp only [List.length_cons, List.length_nil]
    omega
  rw [State.withFetchWord, tableWord_toNat]
  simp only [State.placeWord, hfits]

/-- No byte of memory depends on `EXT_SHL_8XYE`. -/
theorem read_extShl (p : Params) (ext : Bool) (m : Memory) (a : Nat) :
    Memory.read { p with extShl := ext } m a = Memory.read p m a := by
  induction m with
  | nil => rfl
  | cons c rest ih => simp only [Memory.read, ih]

theorem wordAt_readyFor (s : State) (w : Word) (a : Nat) : (s.readyFor w).wordAt a = s.wordAt a := by
  have hbyte : ∀ a, (s.readyFor w).byteAt a = s.byteAt a := read_extShl s.params _ s.mem
  simp only [State.wordAt, hbyte]

theorem wordAt_setBytes {s : State} (hwf : Memory.wf s.params s.mem = true) {a : Nat} (ha : a ≤ 0xFFE) (w : Word) :
    (s.setBytes a [highByte w, lowByte w]).wordAt a = w := by
  have hfits : a + [highByte w, lowByte w].length ≤ 0x1000 := by
    simp only [List.length_cons, List.length_nil]
    omega
  simp [State.wordAt, byteAt_setBytes hwf hfits, highByte_append_lowByte]

/-- The parameter is set for a word of row 8XYE, the one row that needs it (30_encoding.md R76). -/
theorem wellFormed_readyFor (ext : Bool) (i : Instr) :
    i.wellFormed (ext || (encode i &&& 0xF00F == 0x800E)) = true := by
  cases i with
  | shl x y =>
    have hrow : (encode (.shl x y) &&& 0xF00F == 0x800E) = true :=
      accepts_encodeRR 0x8 x y 0xE (r := ⟨"8XYE", 0xF00F, 0x800E, .c⟩) rfl rfl
    exact (Bool.or_eq_true _ _).mpr (.inr hrow)
  | _ => rfl

/-- Settles O7: the two bytes stored at pc are the word again, and the machine made ready for it decodes it. -/
theorem placedInstructionIsRun : Obligations.PlacedInstructionIsRun := by
  intro s i hpc hwf
  rw [withFetchWord_eq hpc]
  have hplaced : ((s.setBytes s.pc.toNat [highByte (encode i), lowByte (encode i)]).readyFor (encode i)).pc = s.pc :=
    setBytes_pc s _ _
  refine step_of_decode rfl (by rwa [hplaced]) ?_
  rw [hplaced, wordAt_readyFor, wordAt_setBytes hwf hpc]
  exact decode_encode (wellFormed_readyFor _ i)

/-! ### CALL and RET -/

theorem execCall_of_room {s : State} (h : s.sp.val < 16) (nnn : Addr) :
    exec (.call nnn) s = .next ({ s with
      stack := s.stack.set s.sp.val (s.pc + 2) h, sp := ⟨s.sp.val + 1, by omega⟩ }.jumpTo (addrOperand nnn)) := by
  simp only [exec, execCall, push_room h, orRaise_ok]

theorem execRet_of_live {s : State} {j : Fin 16} (h : s.sp.val = j.val + 1) :
    exec .ret s = .next ({ s with sp := j.castSucc }.jumpTo s.stack[j]) := by
  have hlive : 0 < s.sp.val := by omega
  have hj : s.sp.val - 1 = j.val := by omega
  simp only [exec, execRet, pop_live hlive, orRaise_ok, hj]
  rfl

/-- CALL completes only with room on the stack (10_state.md R29). -/
theorem sp_of_execCall {nnn : Addr} {s t : State} (h : exec (.call nnn) s = .next t) : s.sp.val < 16 := by
  obtain ⟨u, hpush, -⟩ := orRaise_next h
  obtain ⟨hs, -⟩ := push_ok hpush
  exact hs

/-- Settles O22: the entry at SP takes the pushed address and the others stay; a full stack makes the push fail. -/
theorem callPushesTheNextAddress : Obligations.CallPushesTheNextAddress := by
  intro nnn s
  refine ⟨fun hroom => ?_, fun hfull => ?_⟩
  · have hcall := execCall_of_room hroom nnn
    refine ⟨_, hcall, rfl, fun j => ?_, addrOperand_toNat nnn, (exec_frame hcall).mono (by simp [writtenElems])⟩
    simp [Vector.getElem_set, eq_comm]
  · simp only [exec, execCall, push_full hfull, orRaise_error]

/-- Settles O23: the entry below SP is the target; an empty stack makes the pop fail. -/
theorem retPopsTheTopEntry : Obligations.RetPopsTheTopEntry := by
  intro s
  refine ⟨fun j hj => ?_, fun hempty => ?_⟩
  · have hret := execRet_of_live hj
    exact ⟨_, hret, rfl, rfl, (exec_frame hret).mono (by simp [writtenElems])⟩
  · simp only [exec, execRet, pop_empty hempty, orRaise_error]

/-- Settles O24: the RET pops the entry that the CALL pushed at the old SP, above every live entry. -/
theorem callThenRetComesBack : Obligations.CallThenRetComesBack := by
  intro nnn s t hcall
  have hs := sp_of_execCall hcall
  rw [execCall_of_room hs] at hcall
  cases hcall
  refine ⟨_, execRet_of_live (j := ⟨s.sp.val, hs⟩) rfl, by simp, rfl, fun j hj => ?_, ?_⟩
  · exact Vector.getElem_set_ne hs _ (Nat.ne_of_gt hj)
  · exact (((Frame.refl s).setStack _).finish _ _).mono (by simp)

/-! ### NOP, JP and the skips -/

/-- Settles O19: NOP is the word 0x0000 because a word that decodes to it is its encoding. -/
theorem nopOnlyAdvancesPc : Obligations.NopOnlyAdvancesPc := by
  refine ⟨fun s => ⟨_, rfl, rfl, exec_frame (i := .nop) rfl⟩, fun ext w => ⟨fun h => ?_, ?_⟩, fun ext => rfl⟩
  · obtain ⟨henc, -⟩ := decode_ok h
    exact henc.symm
  · rintro rfl
    rfl

/-- Settles O20: the target is NNN zero-extended, and 0xFFF is above every pc that can be fetched. -/
theorem jpLoadsTheTarget : Obligations.JpLoadsTheTarget := by
  intro nnn s
  refine ⟨_, rfl, addrOperand_toNat nnn, exec_frame (i := .jp nnn) rfl, fun htop hrun => ?_⟩
  refine step_outOfBounds_of_pc hrun ?_
  rw [jumpTo_pc, addrOperand_toNat, htop]
  decide

/-- Settles O25: both end in a skip on their condition, SNE on the negated one. -/
theorem immediateSkipsCompareAndSkip : Obligations.ImmediateSkipsCompareAndSkip := by
  intro x nn s
  refine ⟨⟨_, rfl, ?_, exec_frame (i := .seImm x nn) rfl⟩, ⟨_, rfl, ?_, exec_frame (i := .sneImm x nn) rfl⟩⟩
  · simp
  · simp

/-- Settles O26: a skip on the equality of the registers, which holds of a register with itself. -/
theorem registerEqualSkips : Obligations.RegisterEqualSkips := by
  intro x y s
  refine ⟨_, rfl, ?_, ?_, exec_frame (i := .seReg x y) rfl⟩
  · simp
  · rintro rfl
    simp

/-! ### The end of the wait for a key -/

theorem keyDown_newKeys (k kp : Word) (n : Fin 16) :
    keyDown (newKeys k kp) n = true ↔ k.getLsbD n.val = true ∧ kp.getLsbD n.val = false := by
  simp [keyDown, newKeys]

theorem lowestKey_newKeys_eq_none (k kp : Word) :
    lowestKey (newKeys k kp) = none ↔ ∀ n : Fin 16, ¬ (k.getLsbD n.val = true ∧ kp.getLsbD n.val = false) := by
  simp only [← keyDown_newKeys]
  simp [lowestKey]

theorem lowestKey_eq_some {keys : Word} {n : Fin 16} (hn : keyDown keys n = true)
    (hlow : ∀ m, m < n → ¬ keyDown keys m = true) : lowestKey keys = some n := by
  rw [lowestKey, List.find?_eq_some_iff_getElem]
  refine ⟨hn, n.val, by simp, by simp, fun j hj => ?_⟩
  simpa using hlow ⟨j, hj.trans n.isLt⟩ hj

theorem waitStep_of_some {s : State} {n : Fin 16} (h : lowestKey (newKeys s.k s.kp) = some n) (x : Reg) :
    s.waitStep x = s.finishWait x n := by
  simp only [State.waitStep, h]

theorem waitStep_of_none {s : State} (h : lowestKey (newKeys s.k s.kp) = none) (x : Reg) :
    s.waitStep x = { s with kp := s.k, out := waitingFlags } := by
  simp only [State.waitStep, h]

theorem readV_finishWait (s : State) (x r : Reg) (n : Fin 16) :
    (s.finishWait x n).readV r = if r = x then BitVec.ofNat 8 n.val else s.readV r :=
  readV_writeV s x r _

theorem frame_finishWait (s : State) (x : Reg) (n : Fin 16) :
    Frame [.v, .pc, .mode, .kp, .out] s (s.finishWait x n) := by
  have hv : Frame [.v] s (s.writeV x (BitVec.ofNat 8 n.val)) := (Frame.refl s).setV _
  exact (((hv.finish (s.pc + 2) plainFlags).setMode .running).setKp s.k).mono (by simp)

/-- Settles O46: the search of the sixteen keys from the lowest stops at the first new one, or finds none. -/
theorem waitEndsWithTheLowestNewKey : Obligations.WaitEndsWithTheLowestNewKey := by
  intro x s hmode
  rw [step_awaiting hmode]
  refine ⟨fun n hdown hup hlow => ?_, fun hnone => ?_⟩
  · have hkey : lowestKey (newKeys s.k s.kp) = some n :=
      lowestKey_eq_some ((keyDown_newKeys _ _ n).mpr ⟨hdown, hup⟩)
        fun m hm hnew => hlow m hm ((keyDown_newKeys _ _ m).mp hnew)
    rw [waitStep_of_some hkey]
    refine ⟨_, rfl, ?_, fun r hr => ?_, rfl, rfl, rfl, rfl, frame_finishWait s x n⟩
    · rw [readV_finishWait, if_pos rfl, BitVec.toNat_ofNat]
      omega
    · rw [readV_finishWait, if_neg hr]
  · rw [waitStep_of_none ((lowestKey_newKeys_eq_none _ _).mpr hnone)]
    exact ⟨_, rfl, hmode, rfl, rfl, ((Frame.refl s).setOut waitingFlags).setKp s.k⟩

/-! ### What a step returns -/

/-- What the step that executes an instruction returns: CLS and DRW report a changed display, LD Vx, K an awaited key
(40_step_and_control_flow.md R90; 44_display.md R173). -/
def returnedFlags : Instr → StepFlags
  | .cls => ⟨true, false⟩
  | .drw _ _ _ => ⟨true, false⟩
  | .ldVxK _ => waitingFlags
  | _ => plainFlags

theorem exec_out {i : Instr} {s t : State} (h : exec i s = .next t) : t.out = returnedFlags i := by
  cases i with
  | ret | call nnn | drw x y n | ldB x | ldMemVx x | ldVxMem x =>
    obtain ⟨a, -, h⟩ := orRaise_next h
    cases h
    rfl
  | seImm x nn | sneImm x nn | seReg x y | sneReg x y | skp x | sknp x =>
    cases h
    exact skipIf_out s _
  | _ => cases h; rfl

theorem returnedFlags_displayChanged (i : Instr) :
    (returnedFlags i).displayChanged = true ↔ i = .cls ∨ ∃ x y n, i = .drw x y n := by
  cases i <;> simp [returnedFlags, plainFlags, waitingFlags]

theorem returnedFlags_waitingKey (i : Instr) : (returnedFlags i).waitingKey = true ↔ ∃ x, i = .ldVxK x := by
  cases i <;> simp [returnedFlags, plainFlags, waitingFlags]

theorem waitStep_displayChanged (s : State) (x : Reg) : (s.waitStep x).out.displayChanged = false := by
  rcases waitStep_cases s x with ⟨n, e⟩ | e <;> rw [e] <;> rfl

/-- A step of the wait reports an awaited key exactly when it sees no new one (43_timer_key_random.md R156). -/
theorem waitStep_waitingKey (s : State) (x : Reg) :
    (s.waitStep x).out.waitingKey = true ↔
      ∀ n : Fin 16, ¬ (s.k.getLsbD n.val = true ∧ s.kp.getLsbD n.val = false) := by
  rw [← lowestKey_newKeys_eq_none]
  cases hkey : lowestKey (newKeys s.k s.kp) with
  | none => simp [waitStep_of_none hkey, waitingFlags]
  | some n => simp [waitStep_of_some hkey, State.finishWait, plainFlags]

/-- Settles O51: a Running step returns what its instruction returns, a step of the wait what the sample decides. -/
theorem returnedFlagsTellDrawingAndWaiting : Obligations.ReturnedFlagsTellDrawingAndWaiting := by
  intro s t h
  rcases step_next h with ⟨hrun, i, hi, hexec⟩ | ⟨x, hx, rfl⟩
  · simp [hrun, hi, exec_out hexec, returnedFlags_displayChanged, returnedFlags_waitingKey]
  · simp [hx, waitStep_displayChanged, waitStep_waitingKey]

end Sys2Proof.Machine
end

section
/-! PROOFS. Register loads and the 8-bit ALU (41_alu.md): the results and flags as numbers (R110), what a result without a
flag and one with a flag do to the registers and to the rest of the state, and from these each instruction. -/

namespace Sys2Proof.Machine

/-! ### Results and flags as numbers -/

theorem flagByte_decide (p : Prop) [Decidable p] : flagByte (decide p) = if p then 1 else 0 := by
  simp only [flagByte, decide_eq_true_eq]

theorem addCarry_result (a b : Byte) : (addCarry a b).1.toNat = (a.toNat + b.toNat) % 256 :=
  BitVec.toNat_ofNat _ 8

theorem addCarry_flag (a b : Byte) : flagByte (addCarry a b).2 = if a.toNat + b.toNat > 255 then 1 else 0 :=
  flagByte_decide _

/-- The model adds 256 before it subtracts, so that the difference is a natural number. -/
theorem subNoBorrow_result (a b : Byte) : ((subNoBorrow a b).1.toNat : Int) = (a.toNat - b.toNat : Int) % 256 := by
  have hb := b.isLt
  have hmod : (subNoBorrow a b).1.toNat = (a.toNat + 256 - b.toNat) % 256 := BitVec.toNat_ofNat _ 8
  omega

theorem subNoBorrow_flag (a b : Byte) : flagByte (subNoBorrow a b).2 = if a.toNat ≥ b.toNat then 1 else 0 :=
  flagByte_decide _

theorem shiftRightOut_result (a : Byte) : (shiftRightOut a).1.toNat = a.toNat / 2 := by
  simp only [shiftRightOut, BitVec.toNat_ushiftRight, Nat.shiftRight_eq_div_pow, Nat.pow_one]

theorem shiftRightOut_flag (a : Byte) : (flagByte (shiftRightOut a).2).toNat = a.toNat % 2 := by
  have hbit : (shiftRightOut a).2 = decide (a.toNat % 2 = 1) := Nat.testBit_zero a.toNat
  rw [hbit, flagByte_decide]
  rcases Nat.mod_two_eq_zero_or_one a.toNat with h | h <;> rw [h] <;> rfl

/-! ### What a result does to the state -/

section
variable (s : State) (x : Reg)

theorem readV_result (b : Byte) : (s.writeV x b).advance.readV x = b := by
  rw [readV_advance, readV_writeV, if_pos rfl]

/-- A result without a flag changes VX, and VF only as VX (41_alu.md R110). -/
theorem result_frame (b : Byte) :
    RegsBut (· = x) s (s.writeV x b).advance ∧ (s.writeV x b).advance.pc = s.pc + 2 ∧
      Frame [.v, .pc, .out] s (s.writeV x b).advance := by
  refine ⟨fun r hr => ?_, rfl, (((Frame.refl s).setV _).finish _ _).mono (by simp)⟩
  rw [readV_advance, readV_writeV, if_neg hr]

variable (q : Byte × Bool)

theorem readV_flaggedResult {x : Reg} (hx : x ≠ vf) : (s.writeFlagged x q).advance.readV x = q.1 := by
  rw [readV_advance, readV_writeFlagged, if_neg hx, if_pos rfl]

/-- VF is written last: it holds the flag also where it is the destination (10_state.md R22). -/
theorem readV_flaggedResult_vf : (s.writeFlagged x q).advance.readV vf = flagByte q.2 := by
  rw [readV_advance, readV_writeFlagged, if_pos rfl]

theorem flaggedResult_frame :
    RegsBut (fun r => r = x ∨ r = vf) s (s.writeFlagged x q).advance ∧
      (s.writeFlagged x q).advance.pc = s.pc + 2 ∧ Frame [.v, .pc, .out] s (s.writeFlagged x q).advance := by
  refine ⟨fun r hr => ?_, rfl, (((Frame.refl s).setV _).finish _ _).mono (by simp)⟩
  obtain ⟨hx, hvf⟩ := not_or.mp hr
  rw [readV_advance, readV_writeFlagged, if_neg hvf, if_neg hx]

end

/-! ### Results without a flag -/

/-- Settles O28: both are a result without a flag, NN or VY itself. -/
theorem registerLoadsLoadOnlyTheDestination : Obligations.RegisterLoadsLoadOnlyTheDestination := by
  intro x y nn s
  exact ⟨⟨_, rfl, readV_result s x nn, result_frame s x nn⟩, ⟨_, rfl, readV_result s x _, result_frame s x _⟩⟩

/-- Settles O29: a result without a flag, and the sum of bytes is the sum modulo 256. -/
theorem addImmediateWrapsWithoutFlag : Obligations.AddImmediateWrapsWithoutFlag := by
  intro x nn s
  refine ⟨_, rfl, ?_, result_frame s x _⟩
  rw [readV_result, BitVec.toNat_add]

/-- Settles O30: three results without a flag, each the bitwise operation on the two old values. -/
theorem logicActsBitwiseWithoutFlag : Obligations.LogicActsBitwiseWithoutFlag := by
  intro x y s
  refine ⟨⟨_, rfl, fun k _ => ?_, result_frame s x _⟩, ⟨_, rfl, fun k _ => ?_, result_frame s x _⟩,
    ⟨_, rfl, fun k _ => ?_, result_frame s x _⟩⟩
  · rw [readV_result, BitVec.getLsbD_or]
  · rw [readV_result, BitVec.getLsbD_and]
  · rw [readV_result, BitVec.getLsbD_xor]

/-! ### Results with a flag -/

/-- Settles O31: the flagged result is the sum modulo 256 with the carry. -/
theorem addSetsCarryLast : Obligations.AddSetsCarryLast := by
  intro x y s
  refine ⟨_, rfl, fun hx => ?_, ?_, flaggedResult_frame s x _⟩
  · rw [readV_flaggedResult _ _ hx, addCarry_result]
  · rw [readV_flaggedResult_vf, addCarry_flag]

/-- A difference as a flagged result, whichever operand is the minuend (41_alu.md R118, R120). -/
theorem differenceResult (s : State) (x : Reg) (a b : Byte) :
    (x ≠ vf →
      (((s.writeFlagged x (subNoBorrow a b)).advance.readV x).toNat : Int) = (a.toNat - b.toNat : Int) % 256) ∧
      (s.writeFlagged x (subNoBorrow a b)).advance.readV vf = if a.toNat ≥ b.toNat then 1 else 0 := by
  refine ⟨fun hx => ?_, ?_⟩
  · rw [readV_flaggedResult _ _ hx, subNoBorrow_result]
  · rw [readV_flaggedResult_vf, subNoBorrow_flag]

/-- Settles O32: the flagged result is the difference VX - VY with no-borrow. -/
theorem subSetsNoBorrowLast : Obligations.SubSetsNoBorrowLast := by
  intro x y s
  obtain ⟨hdiff, hflag⟩ := differenceResult s x (s.readV x) (s.readV y)
  exact ⟨_, rfl, hdiff, hflag, flaggedResult_frame s x _⟩

/-- Settles O33: the flagged result is the difference VY - VX with no-borrow. -/
theorem subnSetsNoBorrowLast : Obligations.SubnSetsNoBorrowLast := by
  intro x y s
  obtain ⟨hdiff, hflag⟩ := differenceResult s x (s.readV y) (s.readV x)
  exact ⟨_, rfl, hdiff, hflag, flaggedResult_frame s x _⟩

/-- Settles O34: the flagged result is VX shifted right with the bit shifted out, and no operand is VY. -/
theorem shrPutsTheLowBitInVf : Obligations.ShrPutsTheLowBitInVf := by
  intro x y s
  refine ⟨_, rfl, fun hx => ?_, ?_, flaggedResult_frame s x _⟩
  · rw [readV_flaggedResult _ _ hx, shiftRightOut_result]
  · rw [readV_flaggedResult_vf, shiftRightOut_flag]

end Sys2Proof.Machine
end

section
/-! PROOFS. The display (44_display.md R170). -/

namespace Sys2Proof.Machine

/-- Settles O48: CLS puts the blank framebuffer, of which no pixel is set, and writes no other element. -/
theorem clsUnsetsEveryPixel : Obligations.ClsUnsetsEveryPixel := by
  intro s
  exact ⟨_, rfl, pixel_blank, rfl, rfl, (exec_frame (i := .cls) rfl).mono (by simp [writtenElems])⟩

end Sys2Proof.Machine
end

section
/-! PROOFS. Errors and the host's transitions (60_exceptions.md): which error a step raises and exactly when (R181 to
R187), that an error repeats (R186, R189), what an error is reported as (R185), `tick` (R193), and how the key wait is
entered and left (R201). -/

namespace Sys2Proof.Machine

/-! ### Which error a step raises, and when -/

/-- The error that `i`, executed in `s`, raises: a data access above 0xFFF, with the lowest such address, or a push on a
full or a pop from an empty stack (60_exceptions.md R181, R183, R184). `exec_fault_iff` ties it to `exec`. -/
def Raises (s : State) (f : Fault) : Instr → Prop
  | .ret => s.sp.val = 0 ∧ f = .stackUnderflow
  | .call _ => s.sp.val = 16 ∧ f = .stackOverflow
  | .drw _ _ n => (0 < n.val ∧ 0x1000 < s.dataBase + n.val) ∧ f = .outOfBounds (max s.dataBase 0x1000)
  | .ldB _ => 0x1000 < s.dataBase + 3 ∧ f = .outOfBounds (max s.dataBase 0x1000)
  | .ldMemVx x => 0x1000 < s.dataBase + (x.val + 1) ∧ f = .outOfBounds (max s.dataBase 0x1000)
  | .ldVxMem x => 0x1000 < s.dataBase + (x.val + 1) ∧ f = .outOfBounds (max s.dataBase 0x1000)
  | _ => False

theorem readSpan_error_iff {s : State} {a n : Nat} {f : Fault} :
    s.readSpan a n = .error f ↔ (0 < n ∧ 0x1000 < a + n) ∧ f = .outOfBounds (max a 0x1000) := by
  rw [readSpan_eq]
  split <;> simp_all [eq_comm]

theorem writeSpan_error_iff {s : State} {a : Nat} {bytes : List Byte} {f : Fault} :
    s.writeSpan a bytes = .error f ↔
      (0 < bytes.length ∧ 0x1000 < a + bytes.length) ∧ f = .outOfBounds (max a 0x1000) := by
  rw [writeSpan_eq]
  split <;> simp_all [eq_comm]

theorem push_error_iff {s : State} {w : Word} {f : Fault} :
    s.push w = .error f ↔ s.sp.val = 16 ∧ f = .stackOverflow := by
  by_cases hs : s.sp.val = 16
  · simp [push_full hs, hs, eq_comm]
  · simp [push_room (show s.sp.val < 16 by omega), hs]

theorem pop_error_iff {s : State} {f : Fault} : s.pop = .error f ↔ s.sp.val = 0 ∧ f = .stackUnderflow := by
  by_cases hs : s.sp.val = 0
  · simp [pop_empty hs, hs, eq_comm]
  · simp [pop_live (show 0 < s.sp.val by omega), hs]

/-- A checked operation followed by what raises no error ends in an error exactly when it fails. -/
theorem orRaise_next_fault_iff {α : Type} {r : Except Fault α} {go : α → State} {f : Fault} :
    orRaise r (fun a => .next (go a)) = .fault f ↔ r = .error f := by
  cases r with
  | ok a => simp
  | error g => simp

theorem exec_fault_iff {i : Instr} {s : State} {f : Fault} : exec i s = .fault f ↔ Raises s f i := by
  cases i with
  | ret => exact orRaise_next_fault_iff.trans pop_error_iff
  | call nnn => exact orRaise_next_fault_iff.trans push_error_iff
  | drw x y n => exact orRaise_next_fault_iff.trans readSpan_error_iff
  | ldVxMem x => exact (orRaise_next_fault_iff.trans readSpan_error_iff).trans (by simp [Raises])
  | ldB x => exact (orRaise_next_fault_iff.trans writeSpan_error_iff).trans (by simp [Raises, decimalDigits])
  | ldMemVx x => exact (orRaise_next_fault_iff.trans writeSpan_error_iff).trans (by simp [Raises])
  | _ => exact iff_of_false (fun h => nomatch h) id

/-- The errors of fetch and decode, in their order (60_exceptions.md R181, R182, R187). -/
theorem fetchInstr_error_iff {s : State} {f : Fault} :
    s.fetchInstr = .error f ↔
      (0xFFF ≤ s.pc.toNat ∧ f = .outOfBounds (max s.pc.toNat 0x1000)) ∨
        ∃ w, s.fetchWord = .ok w ∧ (∃ r, decode s.params.extShl w = .error r) ∧ f = .invalidOpcode w := by
  rw [State.fetchInstr, fetchWord_eq]
  by_cases hpc : 0xFFF ≤ s.pc.toNat
  · simp [hpc, eq_comm]
  · cases hdec : decode s.params.extShl (s.wordAt s.pc.toNat) with
    | ok i => simp [hpc, State.decodeWord, hdec]
    | error r => simp [hpc, State.decodeWord, hdec, eq_comm]

/-- A step raises an error only in `Running`: at its fetch or decode, or else in its instruction. -/
theorem step_fault_iff {s : State} {f : Fault} :
    step s = .fault f ↔
      s.mode = .running ∧ (s.fetchInstr = .error f ∨ ∃ i, s.fetchInstr = .ok i ∧ Raises s f i) := by
  cases hm : s.mode with
  | running =>
    rw [step_running hm]
    cases hi : s.fetchInstr with
    | ok i => simp [exec_fault_iff]
    | error g => simp
  | awaitingKey x => simp [step_awaiting hm]

/-! ### Each kind of error -/

/-- The instructions with a data access raise `OutOfBounds` when it leaves memory, and no other does (R181). -/
theorem raises_outOfBounds_iff {s : State} {i : Instr} :
    (∃ a, Raises s (.outOfBounds a) i) ↔
      (∃ x y n, i = .drw x y n ∧ n.val > 0 ∧ s.i.toNat + n.val - 1 > 0xFFF) ∨
        (∃ x, i = .ldB x ∧ s.i.toNat + 2 > 0xFFF) ∨
        ∃ x, (i = .ldMemVx x ∨ i = .ldVxMem x) ∧ s.i.toNat + x.val > 0xFFF := by
  cases i with
  | drw x y n | ldB x | ldMemVx x | ldVxMem x =>
    simp [Raises, State.dataBase]
    omega
  | _ => simp [Raises]

theorem not_raises_invalidOpcode {s : State} {w : Word} {i : Instr} : ¬ Raises s (.invalidOpcode w) i := by
  cases i <;> simp [Raises]

theorem raises_stackOverflow_iff {s : State} {i : Instr} :
    Raises s .stackOverflow i ↔ s.sp.val = 16 ∧ ∃ nnn, i = .call nnn := by
  cases i <;> simp [Raises]

theorem raises_stackUnderflow_iff {s : State} {i : Instr} :
    Raises s .stackUnderflow i ↔ s.sp.val = 0 ∧ i = .ret := by
  cases i <;> simp [Raises]

/-- Settles O9: the fetch raises it above 0xFFE, and of the instructions the four with a data access. -/
theorem outOfBoundsRaisedExactlyWhereListed : Obligations.OutOfBoundsRaisedExactlyWhereListed := by
  intro s
  have hfetch : (∃ a, s.fetchInstr = .error (.outOfBounds a)) ↔ 0xFFF ≤ s.pc.toNat := by
    simp [fetchInstr_error_iff]
  simp only [step_fault_iff, exists_and_left, exists_or, hfetch]
  refine and_congr_right fun _ => or_congr_right ?_
  rw [exists_comm]
  simp only [exists_and_left, raises_outOfBounds_iff]
  cases s.fetchInstr with
  | ok i => simp
  | error f => simp

/-- Settles O10: no instruction raises it and the fetch raises another error. -/
theorem invalidOpcodeRaisedExactlyAtDecode : Obligations.InvalidOpcodeRaisedExactlyAtDecode := by
  intro s w
  simp [step_fault_iff, fetchInstr_error_iff, not_raises_invalidOpcode]

/-- Settles O11: neither is an error of fetch or decode, and only CALL pushes and only RET pops. -/
theorem stackErrorsRaisedExactlyByCallAndRet : Obligations.StackErrorsRaisedExactlyByCallAndRet := by
  intro s
  constructor
  · simp [step_fault_iff, fetchInstr_error_iff, raises_stackOverflow_iff, and_comm]
  · simp [step_fault_iff, fetchInstr_error_iff, raises_stackUnderflow_iff, and_comm]

/-! ### A step as the host sees it -/

theorem hostStep_of_next {s t : State} (h : step s = .next t) : hostStep s = .ok ⟨t, .ok t.out⟩ := by
  simp only [hostStep, h]

theorem hostStep_of_fault {s : State} {f : Fault} (h : step s = .fault f) : hostStep s = .ok ⟨s, .err f⟩ := by
  simp only [hostStep, h]

/-- Settles O13: the host keeps its state on an error, and each kind has its code. -/
theorem errorsAreReportedWithTheirCodes : Obligations.ErrorsAreReportedWithTheirCodes := by
  intro s
  refine ⟨fun t h => ⟨_, hostStep_of_next h, rfl, rfl⟩, fun f h => ⟨_, hostStep_of_fault h, rfl, ?_⟩⟩
  cases f with
  | outOfBounds a => rfl
  | invalidOpcode w => rfl
  | stackOverflow => rfl
  | stackUnderflow => rfl

/-! ### tick and set_keys -/

theorem countDown_toNat (b : Byte) : (countDown b).toNat = if b.toNat > 0 then b.toNat - 1 else 0 := by
  unfold countDown
  split
  · bv_omega
  · omega

theorem frame_tick (s : State) : Frame [.dt, .st] s s.tick :=
  ((Frame.refl s).setSt (countDown s.st)).setDt (countDown s.dt)

theorem frame_setKeys (s : State) (keys : Word) : Frame [.k] s (s.setKeys keys) :=
  (Frame.refl s).cons .k fun e hne hs => by cases e with | k => exact absurd rfl hne | _ => exact hs

/-- Settles O53: both timers count down, and `tick` writes no other element. -/
theorem tickSaturatesBothTimers : Obligations.TickSaturatesBothTimers :=
  fun s => ⟨s.tick, rfl, countDown_toNat s.dt, countDown_toNat s.st, frame_tick s⟩

/-! ### An error repeats -/

theorem raises_poke {s : State} {p : Poke} {f : Fault} {i : Instr} : Raises (s.poke p) f i ↔ Raises s f i := by
  cases i <;> simp [Raises]

/-- An error depends on neither K nor the timers, so a change of one leaves it to be raised again. -/
theorem step_fault_poke {s : State} {f : Fault} (h : step s = .fault f) (p : Poke) : step (s.poke p) = .fault f := by
  have hmode : (s.poke p).mode = s.mode := by cases p <;> rfl
  rw [step_fault_iff] at h ⊢
  simpa only [hmode, fetchInstr_poke, raises_poke] using h

/-- `tick` is a change of ST and a change of DT (60_exceptions.md R193). -/
theorem step_fault_tick {s : State} {f : Fault} (h : step s = .fault f) : step s.tick = .fault f :=
  step_fault_poke (step_fault_poke h (.st (countDown s.st))) (.dt (countDown s.dt))

/-- A transition other than `reset_load`, after an error: the error stands and is all that is reported
(60_exceptions.md R186, R189). -/
theorem transition_of_fault {s : State} {f : Fault} {tr : Transition} (h : step s = .fault f)
    (hload : ∀ rom, tr ≠ .resetLoad rom) :
    ∃ d, transition tr s = .ok d ∧ step d.state = .fault f ∧ Frame [.dt, .st, .k] s d.state ∧
      (d.report = .nothing ∨ d.report = .err f) := by
  cases tr with
  | resetLoad rom => exact absurd rfl (hload rom)
  | step => exact ⟨_, hostStep_of_fault h, h, (Frame.refl s).mono (by simp), .inr rfl⟩
  | tick => exact ⟨_, rfl, step_fault_tick h, (frame_tick s).mono (by simp), .inl rfl⟩
  | setKeys keys => exact ⟨_, rfl, step_fault_poke h (.k keys), (frame_setKeys s keys).mono (by simp), .inl rfl⟩

theorem Frame.trans {c : List Elem} {s t u : State} (h : Frame c s t) (h' : Frame c t u) : Frame c s u := by
  intro e he
  have hst := h e he
  have htu := h' e he
  cases e with
  | v => exact fun r => (htu r).trans (hst r)
  | mem => exact fun a => (htu a).trans (hst a)
  | _ => exact htu.trans hst

/-- Settles O12: by induction on the schedule, each transition keeping the error standing. -/
theorem errorRepeatsUntilResetLoad : Obligations.ErrorRepeatsUntilResetLoad := by
  intro s f schedule h hload
  induction schedule generalizing s with
  | nil => exact ⟨s, [], rfl, h, (Frame.refl s).mono (by simp), by simp⟩
  | cons tr rest ih =>
    have htr : ∀ rom, tr ≠ .resetLoad rom := fun rom => (List.ne_of_not_mem_cons (hload rom)).symm
    have hrest : ∀ rom, .resetLoad rom ∉ rest := fun rom => List.not_mem_of_not_mem_cons (hload rom)
    obtain ⟨d, hd, hfault, hframe, hreport⟩ := transition_of_fault h htr
    obtain ⟨u, reports, hu, hfault', hframe', hreports⟩ := ih d.state hfault hrest
    refine ⟨u, d.report :: reports, by simp only [drive, hd, hu], hfault', hframe.trans hframe', ?_⟩
    exact List.forall_mem_cons.mpr ⟨hreport, hreports⟩

/-! ### The key wait -/

/-- Only LD Vx, K changes the mode (43_timer_key_random.md R155; 10_state.md R34). -/
theorem exec_enters_wait {i : Instr} {s t : State} {x : Reg} (h : exec i s = .next t) (hrun : s.mode = .running)
    (hx : t.mode = .awaitingKey x) : i = .ldVxK x := by
  cases i with
  | ldVxK y =>
    cases h
    cases hx
    rfl
  | _ =>
    have hsame : t.mode = s.mode := exec_frame h .mode (by simp [writtenElems])
    rw [hsame, hrun] at hx
    cases hx

/-- A step of the wait that ends it saw a key that is down and was up (43_timer_key_random.md R156). -/
theorem waitStep_leaves_wait {s : State} {x : Reg} (hx : s.mode = .awaitingKey x)
    (h : (s.waitStep x).mode ≠ .awaitingKey x) :
    (s.waitStep x).mode = .running ∧ ∃ n : Fin 16, s.k.getLsbD n.val = true ∧ s.kp.getLsbD n.val = false := by
  cases hkey : lowestKey (newKeys s.k s.kp) with
  | none =>
    rw [waitStep_of_none hkey] at h
    exact absurd hx h
  | some n =>
    rw [waitStep_of_some hkey]
    exact ⟨rfl, n, (keyDown_newKeys _ _ n).mp (List.find?_some hkey)⟩

theorem hostLoad_mode {s : State} {rom : List Byte} {d : Driven} (h : hostLoad s rom = .ok d) :
    d.state.mode = .running := by
  by_cases hrom : rom.length ≤ 3584
  · rw [hostLoad, resetLoad_accepts s hrom] at h
    cases h
    rw [loaded_eq]
    rfl
  · rw [hostLoad, resetLoad_refuses s (by omega)] at h
    cases h

/-- A transition leaves the mode alone unless it is `reset_load` or a step that completes. -/
theorem transition_mode {s : State} {tr : Transition} {d : Driven} (h : transition tr s = .ok d) :
    d.state.mode = s.mode ∨ (d.state.mode = .running ∧ ∃ rom, tr = .resetLoad rom) ∨
      (tr = .step ∧ step s = .next d.state) := by
  cases tr with
  | resetLoad rom => exact .inr (.inl ⟨hostLoad_mode h, rom, rfl⟩)
  | tick => cases h; exact .inl rfl
  | setKeys keys => cases h; exact .inl rfl
  | step =>
    simp only [transition, hostStep] at h
    split at h
    · cases h
      exact .inr (.inr ⟨rfl, ‹_›⟩)
    · cases h
      exact .inl rfl
    · cases h

/-- Settles O56: a change of mode is `reset_load`'s, or that of an LD Vx, K that was fetched, or the end of the wait. -/
theorem waitIsEnteredAndLeftOnlyAsTheRulesSay : Obligations.WaitIsEnteredAndLeftOnlyAsTheRulesSay := by
  intro s tr d h
  refine ⟨fun x hrun hx => ?_, fun x hx hleft => ?_⟩
  · rcases transition_mode h with hsame | ⟨hrun', -⟩ | ⟨htr, hstep⟩
    · rw [hsame, hrun] at hx
      cases hx
    · rw [hrun'] at hx
      cases hx
    · rw [step_running hrun] at hstep
      obtain ⟨i, hi, hexec⟩ := orRaise_next hstep
      exact ⟨htr, exec_enters_wait hexec hrun hx ▸ hi⟩
  · rcases transition_mode h with hsame | ⟨hrun, hload⟩ | ⟨htr, hstep⟩
    · exact absurd (hsame.trans hx) hleft
    · exact ⟨hrun, .inl hload⟩
    · rw [step_awaiting hx] at hstep
      rw [← Host.Outcome.next.inj hstep] at hleft ⊢
      obtain ⟨hrun, hkey⟩ := waitStep_leaves_wait hx hleft
      exact ⟨hrun, .inr ⟨htr, hkey⟩⟩

end Sys2Proof.Machine
end

section
/-! PROOFS. Reset and hazards (70_reset_and_hazards.md): the memory image that `reset_load` makes (R212), the slide through
zeroed memory (R220), and the jump to itself (R219). -/

namespace Sys2Proof.Machine

/-! ### The memory image of `reset_load` -/

/-- The font's bytes as a list, in place of the bounds-checked reads of the definition. -/
theorem background_eq (p : Params) (a : Nat) :
    Memory.background p a = if p.fontBase.val ≤ a ∧ a < p.fontBase.val + 80 then
      p.fontData.toList.getD (a - p.fontBase.val) 0 else 0 := by
  unfold Memory.background
  split
  · have hin : a - p.fontBase.val < 80 := by omega
    simp [hin]
  · rfl

/-- A ROM lies over the reset contents from 0x200 on. -/
theorem byteAt_loaded (s : State) {rom : List Byte} (h : rom.length ≤ 3584) (a : Nat) :
    (s.loaded rom).byteAt a =
      if 0x200 ≤ a ∧ a < 0x200 + rom.length then rom.getD (a - 0x200) 0 else Memory.background s.params a :=
  byteAt_setBytes (wf_reset s.params s.draws) (by simp only [Config.progBase]; omega) a

/-- Settles O54: the ROM is stored over a memory that lists nothing, so every other address reads its background. -/
theorem resetLoadMakesTheMemoryImage : Obligations.ResetLoadMakesTheMemoryImage := by
  intro s rom hrom
  refine ⟨s.loaded rom, resetLoad_accepts s hrom, fun a _ => ?_⟩
  rw [byteAt_loaded s hrom, background_eq]

/-! ### A run by its first and by its last step -/

theorem stepN_succ_of_next {s t : State} (h : step s = .next t) (n : Nat) : stepN (n + 1) s = stepN n t := by
  simp only [stepN, h]

theorem stepN_one (s : State) : stepN 1 s = step s := by
  simp only [stepN]
  cases step s with
  | next t => rfl
  | fault f => rfl
  | refused r => rfl

theorem stepN_succ_of_stepN {n : Nat} {s t : State} (h : stepN n s = .next t) : stepN (n + 1) s = step t := by
  induction n generalizing s with
  | zero =>
    cases h
    exact stepN_one _
  | succ n ih =>
    cases hs : step s with
    | next u =>
      rw [stepN_succ_of_next hs] at h ⊢
      exact ih h
    | fault f => simp [stepN, hs] at h
    | refused r => simp [stepN, hs] at h

/-! ### Zeroed memory -/

/-- The word 0x0000 is NOP (40_step_and_control_flow.md R93). -/
theorem step_of_zeroWord {s : State} (hrun : s.mode = .running) (hpc : s.pc.toNat ≤ 0xFFE)
    (hword : s.wordAt s.pc.toNat = 0) : step s = .next s.advance := by
  obtain ⟨-, hnop, -⟩ := nopOnlyAdvancesPc
  exact step_of_decode hrun hpc ((hnop _ _).mpr hword)

theorem frame_advance (s : State) : Frame [.pc, .out] s s.advance := (Frame.refl s).finish _ _

theorem stepN_zeroed {n : Nat} {s : State} (hrun : s.mode = .running) (hpc : s.pc.toNat + 2 * n ≤ 0x1000)
    (hzero : ∀ j, j < 2 * n → s.byteAt (s.pc.toNat + j) = 0) :
    ∃ t, stepN n s = .next t ∧ t.pc.toNat = s.pc.toNat + 2 * n ∧ Frame [.pc, .out] s t := by
  induction n generalizing s with
  | zero => exact ⟨s, rfl, rfl, (Frame.refl s).mono (by simp)⟩
  | succ n ih =>
    have hword : s.wordAt s.pc.toNat = 0 := by
      have hhigh : s.byteAt s.pc.toNat = 0 := hzero 0 (by omega)
      have hlow : s.byteAt (s.pc.toNat + 1) = 0 := hzero 1 (by omega)
      rw [State.wordAt, hhigh, hlow]
      rfl
    have hstep := step_of_zeroWord hrun (by omega) hword
    have hadv : s.advance.pc.toNat = s.pc.toNat + 2 := by
      rw [advance_pc]
      bv_omega
    have hzero' : ∀ j, j < 2 * n → s.advance.byteAt (s.advance.pc.toNat + j) = 0 := by
      intro j hj
      rw [byteAt_advance, hadv, Nat.add_assoc]
      exact hzero (2 + j) (by omega)
    obtain ⟨t, hrest, htpc, hframe⟩ := ih (s := s.advance) hrun (by omega) hzero'
    exact ⟨t, (stepN_succ_of_next hstep n).trans hrest, by omega, (frame_advance s).trans hframe⟩

/-- Settles O57: `n` NOPs, each two bytes further, and then a fetch past the end of memory. -/
theorem zeroedMemorySlidesToTheEnd : Obligations.ZeroedMemorySlidesToTheEnd := by
  intro n s hrun hpc hzero
  obtain ⟨t, hslide, htpc, hframe⟩ := stepN_zeroed hrun hpc hzero
  refine ⟨⟨t, hslide, htpc, hframe⟩, fun hend => ?_⟩
  have htrun : t.mode = .running := (hframe .mode (by decide)).trans hrun
  have hfetch : t.fetchWord = .error (.outOfBounds 0x1000) := by
    rw [fetchWord_eq, if_pos (by omega), Nat.max_eq_right (by omega)]
  rw [stepN_succ_of_stepN hslide]
  exact step_of_fetch_error htrun hfetch

/-! ### The jump to itself -/

/-- The word 0x1NNN is the JP to NNN, so with NNN = pc it loads pc with itself (40_step_and_control_flow.md R95). -/
theorem step_of_selfJump {s : State} (hrun : s.mode = .running) (hpc : s.pc.toNat ≤ 0xFFE)
    (hword : (s.wordAt s.pc.toNat).toNat = 0x1000 + s.pc.toNat) : step s = .next (s.jumpTo s.pc) := by
  have htarget : addrOperand (s.pc.setWidth 12) = s.pc := by
    apply BitVec.eq_of_toNat_eq
    rw [addrOperand_toNat, BitVec.toNat_setWidth]
    omega
  have henc : s.wordAt s.pc.toNat = encode (.jp (s.pc.setWidth 12)) := by
    apply BitVec.eq_of_toNat_eq
    have hop : (0x1 : BitVec 4).toNat = 1 := rfl
    rw [hword, encode, encodeA_toNat, hop, BitVec.toNat_setWidth]
    omega
  have hstep : step s = exec (.jp (s.pc.setWidth 12)) s :=
    step_of_decode hrun hpc (by rw [henc]; exact decode_encode rfl)
  rw [hstep]
  simp only [exec, execJp, htarget]

/-- Settles O58: by induction on the number of steps, each of which writes pc with itself. -/
theorem selfJumpNeverChangesTheState : Obligations.SelfJumpNeverChangesTheState := by
  intro n s hrun hpc hword
  induction n generalizing s with
  | zero => exact ⟨s, rfl, (Frame.refl s).mono (by simp)⟩
  | succ n ih =>
    have hstep := step_of_selfJump hrun hpc hword
    obtain ⟨t, hrest, hframe⟩ := ih (s.jumpTo s.pc) hrun hpc hword
    have hfirst : Frame [.out] s (s.jumpTo s.pc) := (Frame.refl s).setOut plainFlags
    exact ⟨t, (stepN_succ_of_next hstep n).trans hrest, hfirst.trans hframe⟩

end Sys2Proof.Machine
end

section
/-! PROOFS. The index register and data memory (42_index_memory.md R130 to R135): what each instruction puts in I, the two
stores and the block load where their bytes lie in memory, and the error where they do not. -/

namespace Sys2Proof.Machine

/-! ### What I takes -/

theorem indexSum_result (i : Word) (a : Byte) : (indexSum i a).1.toNat = (i.toNat + a.toNat) % 65536 :=
  BitVec.toNat_ofNat _ 16

theorem indexSum_flag (i : Word) (a : Byte) : flagByte (indexSum i a).2 = if i.toNat + a.toNat > 0xFFF then 1 else 0 :=
  flagByte_decide _

theorem lowNibble_val (b : Byte) : (lowNibble b).val = b.toNat % 16 := by
  simp [lowNibble]

/-- The glyphs end at 0x1FF, so that no glyph address wraps (00_scope.md R7, `FONT_BASE`). -/
theorem glyphAddr_toNat (p : Params) (d : Fin 16) : (glyphAddr p d).toNat = p.fontBase.val + 5 * d.val := by
  have := p.fontBase.isLt
  simp only [glyphAddr, BitVec.toNat_ofNat]
  omega

/-- Within a block that lies in memory the post-increment does not wrap (42_index_memory.md R134, R135). -/
theorem bumpIndex_i_toNat {s : State} {x : Reg} (h : s.i.toNat + x.val ≤ 0xFFF) :
    (s.bumpIndex x).i.toNat = if s.params.memIncrementI then s.i.toNat + x.val + 1 else s.i.toNat := by
  rw [bumpIndex_i]
  split
  · rw [BitVec.toNat_add, BitVec.toNat_ofNat]
    omega
  · rfl

/-- The elements of an instruction that writes `b` only under a parameter. -/
@[simp] theorem elems_ite_subset {a b : Elem} {q : Bool} {c : List Elem} :
    (if q then [a, b] else [a]) ⊆ c ↔ a ∈ c ∧ (q = true → b ∈ c) := by
  cases q <;> simp

/-- Settles O36: I takes the sum modulo 2^16; VF takes the flag last, and only under the parameter. -/
theorem addIWrapsAtSixteenBits : Obligations.AddIWrapsAtSixteenBits := by
  intro x s
  have hadd : exec (.addI x) s = .next (s.addToIndex (indexSum s.i (s.readV x))).advance := rfl
  refine ⟨_, hadd, ?_, fun hvf => ?_, fun r hr => ?_, by simp, rfl, (exec_frame hadd).mono (by simp [writtenElems])⟩
  · rw [advance_i, addToIndex_i, indexSum_result]
  · rw [readV_advance, readV_addToIndex, if_pos ⟨hvf, rfl⟩, indexSum_flag]
  · rw [readV_advance, readV_addToIndex, if_neg hr]

/-- Settles O37: NNN zero-extended, and the glyph address of the low nibble, at most 432 + 5 * 15. -/
theorem indexLoadsLoadAnAddress : Obligations.IndexLoadsLoadAnAddress := by
  intro nnn x s
  have hglyph : (glyphAddr s.params (lowNibble (s.readV x))).toNat =
      s.params.fontBase.val + 5 * ((s.readV x).toNat % 16) := by
    rw [glyphAddr_toNat, lowNibble_val]
  have hbase := s.params.fontBase.isLt
  refine ⟨⟨_, rfl, addrOperand_toNat nnn, rfl, rfl, (exec_frame (i := .ldI nnn) rfl).mono (by simp [writtenElems])⟩,
    ⟨_, rfl, hglyph, ?_, rfl, rfl, (exec_frame (i := .ldF x) rfl).mono (by simp [writtenElems])⟩⟩
  exact hglyph.trans_le (by omega)

/-! ### The stores and the block load where their bytes lie in memory -/

theorem execLdB_of_fits {s : State} (h : s.dataBase + 3 ≤ 0x1000) (x : Reg) :
    exec (.ldB x) s = .next (s.setBytes s.dataBase (decimalDigits (s.readV x))).advance := by
  have hlen : (decimalDigits (s.readV x)).length = 3 := rfl
  simp only [exec, execLdB]
  rw [writeSpan_eq, hlen, if_neg (by omega), orRaise_ok]

theorem execLdMemVx_of_fits {s : State} {x : Reg} (h : s.dataBase + (x.val + 1) ≤ 0x1000) :
    exec (.ldMemVx x) s = .next ((s.setBytes s.dataBase (s.readVs x)).bumpIndex x).advance := by
  simp only [exec, execLdMemVx]
  rw [writeSpan_eq, readVs_length, if_neg (by omega), orRaise_ok]

/-- Each of the three addresses from I on holds its decimal digit (42_index_memory.md R133). -/
theorem byteAt_decimalDigits {s : State} (hwf : Memory.wf s.params s.mem = true) {a k : Nat} (ha : a + 3 ≤ 0x1000)
    (hk : k < 3) (b : Byte) : (s.setBytes a (decimalDigits b)).byteAt (a + k) = (decimalDigits b).getD k 0 := by
  have hlen : (decimalDigits b).length = 3 := rfl
  rw [byteAt_setBytes hwf (by omega), hlen, if_pos (by omega), Nat.add_sub_cancel_left]

/-- Settles O38: three bytes stored at I are the digits, each below 256; the span ends at I + 2. -/
theorem bcdStoresTheThreeDigits : Obligations.BcdStoresTheThreeDigits := by
  intro x s hwf
  refine ⟨fun hfit => ?_, fun hout => exec_fault_iff.mpr ⟨show 0x1000 < s.i.toNat + 3 by omega, rfl⟩⟩
  have hspan : s.i.toNat + 3 ≤ 0x1000 := by omega
  have hbcd := execLdB_of_fits (s := s) hspan x
  have hv := (s.readV x).isLt
  have hdigit := fun k (hk : k < 3) => congrArg BitVec.toNat (byteAt_decimalDigits hwf hspan hk (s.readV x))
  refine ⟨_, hbcd, (hdigit 0 (by decide)).trans ?_, (hdigit 1 (by decide)).trans ?_, (hdigit 2 (by decide)).trans ?_,
    exec_bytesOutside hbcd, by simp, rfl, (exec_frame hbcd).mono (by simp [writtenElems])⟩
  all_goals
    refine (BitVec.toNat_ofNat _ 8).trans ?_
    omega

/-- Settles O39: the stored block is the registers', and the span ends at I + X. -/
theorem blockStoreWritesTheRegisters : Obligations.BlockStoreWritesTheRegisters := by
  intro x s hwf
  refine ⟨fun hfit => ?_, fun hout => exec_fault_iff.mpr ⟨show 0x1000 < s.i.toNat + (x.val + 1) by omega, rfl⟩⟩
  have hstore := execLdMemVx_of_fits (s := s) (x := x) (show s.i.toNat + (x.val + 1) ≤ 0x1000 by omega)
  refine ⟨_, hstore, fun r hr => byteAt_of_execLdMemVx hwf hstore hr, exec_bytesOutside hstore, ?_, by simp, rfl,
    (exec_frame hstore).mono (by simp [writtenElems])⟩
  rw [advance_i, bumpIndex_i_toNat (by simpa using hfit), setBytes_params, setBytes_i]

/-- Settles O40: the registers take the bytes of the block, and the span ends at I + X. -/
theorem blockLoadReadsTheBytes : Obligations.BlockLoadReadsTheBytes := by
  intro x s
  refine ⟨fun hfit => ?_, fun hout => exec_fault_iff.mpr ⟨show 0x1000 < s.i.toNat + (x.val + 1) by omega, rfl⟩⟩
  have hload := execLdVxMem_of_fits (s := s) (x := x) (show s.i.toNat + (x.val + 1) ≤ 0x1000 by omega)
  refine ⟨_, hload, fun r hr => readV_of_execLdVxMem hload hr, fun r hr => exec_regsBut hload r ?_, ?_, by simp, rfl,
    (exec_frame hload).mono (by simp [writtenElems])⟩
  · simpa [writesReg] using hr
  · exact bumpIndex_i_toNat (s := s.writeVs _) hfit

end Sys2Proof.Machine
end

section
/-! PROOFS. Control flow, SHL, timers, keypad and random: the rules that rest on the spec's decisions
(40_step_and_control_flow.md R100, R101; 41_alu.md R121; 43_timer_key_random.md R150 to R155, R158). -/

namespace Sys2Proof.Machine

/-! ### JP V0 and SNE -/

/-- The sum of a 12-bit address and a byte fits in 16 bits (40_step_and_control_flow.md R101). -/
theorem addrOperand_add_toNat (nnn : Addr) (b : Byte) :
    (addrOperand nnn + b.setWidth 16).toNat = nnn.toNat + b.toNat := by
  have := nnn.isLt
  have := b.isLt
  rw [BitVec.toNat_add, addrOperand_toNat, BitVec.toNat_setWidth]
  omega

/-- Settles O21: the target is the whole sum, and no pc above 0xFFE can be fetched from. -/
theorem jpV0LoadsTheSumUnreduced : Obligations.JpV0LoadsTheSumUnreduced := by
  intro nnn s
  have htarget := addrOperand_add_toNat nnn (s.readV 0)
  refine ⟨_, rfl, htarget, rfl, exec_frame (i := .jpV0 nnn) rfl, fun hhigh hrun => step_outOfBounds_of_pc hrun ?_⟩
  rw [jumpTo_pc, htarget]
  exact hhigh

/-- Settles O27: a skip on the inequality of the registers, which fails of a register with itself. -/
theorem registerUnequalSkips : Obligations.RegisterUnequalSkips := by
  intro x y s
  refine ⟨_, rfl, ?_, ?_, skipIf_out s _, exec_frame (i := .sneReg x y) rfl⟩
  · simp
  · rintro rfl
    simp

/-! ### SHL -/

theorem shiftLeftOut_result (a : Byte) : (shiftLeftOut a).1.toNat = a.toNat * 2 % 256 := by
  simp only [shiftLeftOut, BitVec.toNat_shiftLeft, Nat.shiftLeft_eq, Nat.pow_one, Nat.reducePow]

/-- Bit 7 of a byte is its quotient by 128. -/
theorem shiftLeftOut_flag (a : Byte) : (flagByte (shiftLeftOut a).2).toNat = a.toNat / 128 := by
  have hlt := a.isLt
  have hbit : (shiftLeftOut a).2 = decide (a.toNat ≥ 128) := BitVec.msb_eq_decide a
  rw [hbit, flagByte_decide]
  split
  · change 1 = a.toNat / 128
    omega
  · change 0 = a.toNat / 128
    omega

/-- The word of SHL is reserved where its parameter is not set (30_encoding.md R76). -/
theorem decode_encode_shl_disabled (x y : Reg) : decode false (encode (.shl x y)) = .error .op8XYE := by
  simp [decode, decodeAlu, encode]

/-- Settles O35: the flagged result is VX shifted left with the bit shifted out, and no operand is VY. -/
theorem shlPutsTheHighBitInVf : Obligations.ShlPutsTheHighBitInVf := by
  intro x y s
  obtain ⟨hregs, hpc, hframe⟩ := flaggedResult_frame s x (shiftLeftOut (s.readV x))
  refine ⟨⟨decode_encode rfl, decode_encode_shl_disabled x y⟩, _, rfl, fun hx => ?_, ?_, hregs, hpc, rfl, hframe⟩
  · rw [readV_flaggedResult _ _ hx, shiftLeftOut_result]
  · rw [readV_flaggedResult_vf, shiftLeftOut_flag]

/-! ### Timers and random -/

/-- Settles O43: DT as a result without a flag, and each timer written with VX. -/
theorem timersAreReadAndWritten : Obligations.TimersAreReadAndWritten := by
  intro x s
  obtain ⟨hregs, hpc, hframe⟩ := result_frame s x s.dt
  exact ⟨⟨_, rfl, readV_result s x s.dt, hregs, hpc, rfl, hframe⟩,
    ⟨_, rfl, rfl, rfl, rfl, (exec_frame (i := .ldDtVx x) rfl).mono (by simp [writtenElems])⟩,
    ⟨_, rfl, rfl, rfl, rfl, (exec_frame (i := .ldStVx x) rfl).mono (by simp [writtenElems])⟩⟩

/-- Settles O47: the sample, masked, as a result without a flag; no bit outside the mask survives. -/
theorem rndMasksOneFreeDraw : Obligations.RndMasksOneFreeDraw := by
  intro x nn s
  have hrnd : exec (.rnd x nn) s = .next (s.drawn.writeV x (s.rnd &&& nn)).advance := rfl
  obtain ⟨hregs, hpc, -⟩ := result_frame s.drawn x (s.rnd &&& nn)
  have hx := readV_result s.drawn x (s.rnd &&& nn)
  refine ⟨_, hrnd, hx, ?_, rfl, hregs, hpc, rfl, (exec_frame hrnd).mono (by simp [writtenElems])⟩
  rw [hx, BitVec.and_assoc, BitVec.and_not_self]
  exact BitVec.and_zero

/-! ### The keypad -/

theorem keyDown_lowNibble (keys : Word) (b : Byte) : keyDown keys (lowNibble b) = keys.getLsbD (b.toNat % 16) := by
  rw [keyDown, lowNibble_val]

/-- Settles O44: both end in a skip on the level of the key that the low nibble names, SKNP on the negated one. -/
theorem keySkipsTestTheKeyLevel : Obligations.KeySkipsTestTheKeyLevel := by
  intro x s
  rw [← keyDown_lowNibble]
  refine ⟨⟨_, rfl, skipIf_pc s _, skipIf_out s _, exec_frame (i := .skp x) rfl⟩,
    ⟨_, rfl, ?_, skipIf_out s _, exec_frame (i := .sknp x) rfl⟩⟩
  rw [skipIf_pc]
  cases keyDown s.k (lowNibble (s.readV x)) <;> rfl

/-- Settles O45: the wait writes the mode, the sample and the returned flags whatever K is. -/
theorem keyWaitIsEnteredWithoutCompleting : Obligations.KeyWaitIsEnteredWithoutCompleting := by
  intro x s
  exact ⟨_, rfl, rfl, rfl, rfl, (((Frame.refl s).setOut waitingFlags).setKp s.k).setMode (.awaitingKey x)⟩

end Sys2Proof.Machine
end

section
/-! PROOFS. The display, continued (44_display.md R171, R172): DRW as one call of the draw primitive on the rows at I, which
pixels it flips and when it collides, and that the same draw a second time undoes the first. -/

namespace Sys2Proof.Machine

/-! ### The rows of the sprite -/

/-- The `n` rows that DRW reads from I on (44_display.md R172); `execDrw_of_fits` ties them to `exec`. -/
def State.sprite (s : State) (n : Nat) : List Byte := (List.range n).map fun r => s.byteAt (s.dataBase + r)

@[simp] theorem sprite_length (s : State) (n : Nat) : (s.sprite n).length = n := by simp [State.sprite]

theorem sprite_getD (s : State) {n r : Nat} (hr : r < n) : (s.sprite n).getD r 0 = s.byteAt (s.dataBase + r) := by
  simp [State.sprite, List.getD, hr]

theorem sprite_congr {s t : State} (hi : t.i = s.i) (hmem : ∀ a, t.byteAt a = s.byteAt a) (n : Nat) :
    t.sprite n = s.sprite n := by
  simp only [State.sprite, State.dataBase, hi, hmem]

/-- A 1 bit of the sprite, at row `r` and column `c`, read as a byte of memory. -/
theorem exists_sprite_bit {s : State} {n : Nat} {P : Nat → Nat → Prop} :
    (∃ r c, r < (s.sprite n).length ∧ c < 8 ∧ ((s.sprite n).getD r 0).getLsbD (7 - c) = true ∧ P r c) ↔
      ∃ r c, r < n ∧ c < 8 ∧ (s.byteAt (s.i.toNat + r)).getLsbD (7 - c) = true ∧ P r c := by
  rw [sprite_length]
  refine exists₂_congr fun r c => and_congr_right fun hr => ?_
  rw [sprite_getD s hr, State.dataBase]

/-! ### DRW as one draw -/

theorem execDrw_of_fits {s : State} {n : Fin 16} (h : n.val = 0 ∨ s.dataBase + n.val ≤ 0x1000) (x y : Reg) :
    exec (.drw x y n) s =
      .next (s.putCanvas (draw s.fb (s.readV x) (s.readV y) (s.sprite n.val))).advanceDrawn := by
  simp only [exec, execDrw]
  rw [readSpan_eq, if_neg (by omega), orRaise_ok]
  rfl

/-- DRW completes only if there is no row or every row lies in memory (44_display.md R172). -/
theorem fits_of_execDrw {x y : Reg} {n : Fin 16} {s t : State} (h : exec (.drw x y n) s = .next t) :
    n.val = 0 ∨ s.dataBase + n.val ≤ 0x1000 := by
  by_contra hout
  have hfault : exec (.drw x y n) s = .fault (.outOfBounds (max s.dataBase 0x1000)) :=
    exec_fault_iff.mpr ⟨by omega, rfl⟩
  rw [hfault] at h
  cases h

theorem flagByte_eq_one {f : Bool} : flagByte f = 1 ↔ f = true := by cases f <;> decide

theorem flagByte_zero_or_one (f : Bool) : flagByte f = 0 ∨ flagByte f = 1 := by cases f <;> decide

/-- Settles O49: DRW is one draw of the rows at I, with at most 15 of 32 rows so that no pixel is hit twice; the span of
no rows passes every bounds check. -/
theorem drwFlipsTheSpritePixels : Obligations.DrwFlipsTheSpritePixels := by
  intro x y n s
  refine ⟨fun hfit => ?_, fun hpos hout =>
    exec_fault_iff.mpr ⟨⟨hpos, show 0x1000 < s.i.toNat + n.val by omega⟩, rfl⟩⟩
  have hdrw := execDrw_of_fits (s := s) (n := n) (show n.val = 0 ∨ s.i.toNat + n.val ≤ 0x1000 by omega) x y
  have hrows : (s.sprite n.val).length ≤ 32 := by rw [sprite_length]; omega
  refine ⟨_, hdrw, fun px py hpx hpy => ?_, ?_, ?_, fun r hr => ?_, rfl, rfl,
    (exec_frame hdrw).mono (by simp [writtenElems])⟩
  · refine (draw_pixel s.fb (s.readV x) (s.readV y) _ hrows px py).trans ?_
    rw [SpriteHits, exists_sprite_bit, Nat.mod_eq_of_lt hpx, Nat.mod_eq_of_lt hpy]
  · rw [readV_advanceDrawn, readV_putCanvas, if_pos rfl]
    exact flagByte_zero_or_one _
  · rw [readV_advanceDrawn, readV_putCanvas, if_pos rfl, flagByte_eq_one, draw_collision _ _ _ _ hrows,
      exists_sprite_bit]
  · rw [readV_advanceDrawn, readV_putCanvas, if_neg hr]

/-! ### The same draw twice -/

section
variable (fb : Framebuffer) (x0 y0 : Byte) {rows : List Byte} (hrows : rows.length ≤ 32)
include hrows

/-- Both draws flip the same pixels, and a pixel flipped twice is as it was. -/
theorem draw_draw : (draw (draw fb x0 y0 rows).1 x0 y0 rows).1 = fb := by
  refine fb_ext fun px py _ _ => ?_
  have hfirst := draw_pixel fb x0 y0 rows hrows px py
  have hsecond := draw_pixel (draw fb x0 y0 rows).1 x0 y0 rows hrows px py
  by_cases hit : SpriteHits rows x0.toNat y0.toNat px py
  · have hflip := Bool.eq_not_of_ne (hfirst.mpr hit)
    have hback := Bool.eq_not_of_ne (hsecond.mpr hit)
    rw [hback, hflip, Bool.not_not]
  · exact (not_ne_iff.mp (mt hsecond.mp hit)).trans (not_ne_iff.mp (mt hfirst.mp hit))

/-- A pixel that a 1 bit of the sprite falls on is set after the draw exactly when it was unset before. -/
theorem draw_pixel_of_bit {r c : Nat} (hr : r < rows.length) (hc : c < 8)
    (hbit : (rows.getD r 0).getLsbD (7 - c) = true) :
    (draw fb x0 y0 rows).1.pixel (x0.toNat + c) (y0.toNat + r) = !fb.pixel (x0.toNat + c) (y0.toNat + r) :=
  Bool.eq_not_of_ne ((draw_pixel fb x0 y0 rows hrows _ _).mpr ⟨r, c, hr, hc, hbit, rfl, rfl⟩)

/-- The second draw collides exactly where a 1 bit of the sprite fell on an unset pixel. -/
theorem draw_draw_collision :
    (draw (draw fb x0 y0 rows).1 x0 y0 rows).2 = true ↔
      ∃ r c, r < rows.length ∧ c < 8 ∧ (rows.getD r 0).getLsbD (7 - c) = true ∧
        fb.pixel (x0.toNat + c) (y0.toNat + r) = false := by
  rw [draw_collision _ _ _ _ hrows]
  refine exists₂_congr fun r c => and_congr_right fun hr => and_congr_right fun hc => and_congr_right fun hbit => ?_
  rw [draw_pixel_of_bit fb x0 y0 hrows hr hc hbit, Bool.not_eq_true']

end

/-- Settles O50: the first DRW leaves I and memory, so the second draws the same rows at the same place. -/
theorem drawingTwiceRestoresTheScreen : Obligations.DrawingTwiceRestoresTheScreen := by
  intro x y n s t hfirst hx hy
  have hfit := fits_of_execDrw hfirst
  have hframe := exec_frame hfirst
  have hi : t.i = s.i := hframe .i (by simp [writtenElems])
  have hmem : ∀ a, t.byteAt a = s.byteAt a := hframe .mem (by simp [writtenElems])
  have hrows : (s.sprite n.val).length ≤ 32 := by rw [sprite_length]; omega
  have hfb : t.fb = (draw s.fb (s.readV x) (s.readV y) (s.sprite n.val)).1 := by
    rw [execDrw_of_fits hfit] at hfirst
    cases hfirst
    rfl
  have hsecond := execDrw_of_fits (s := t) (n := n) (by rwa [State.dataBase, hi]) x y
  rw [hfb, hx, hy, sprite_congr hi hmem] at hsecond
  refine ⟨_, hsecond, draw_draw s.fb _ _ hrows, ?_⟩
  rw [readV_advanceDrawn, readV_putCanvas, if_pos rfl, flagByte_eq_one, draw_draw_collision s.fb _ _ hrows,
    exists_sprite_bit]

end Sys2Proof.Machine
end
